-- ==== Sys2Proof/Word.lean ====
section
/-! DEFINITION. The widths of the spec's values (R8, R11): every value is unsigned. -/

namespace Sys2Proof

/-- A memory byte, a general register, a timer, the immediate `kk`, `rnd` (R21, R28, R42, R61). -/
abbrev Byte := BitVec 8

/-- An instruction word, `pc`, `I`, a stack entry (R24, R25, R26, R80). -/
abbrev Word := BitVec 16

/-- The 12-bit immediate `nnn` (R82, R83). -/
abbrev Addr := BitVec 12

/-- A nibble of an instruction word (R81): the category, or the row count `n`. -/
abbrev Nibble := BitVec 4

/-- The number of a general register, `V0` to `VF` (R21, R84). -/
abbrev Reg := Fin 16

end Sys2Proof
end

