-- ==== Sys2Proof/Config.lean ====
section
/-! DEFINITION. What is fixed for the machine (R8), and its one free value (R10).
The font base and the font bytes (R9, R31) stand in Machine/Memory.lean. -/

namespace Sys2Proof.Config

/-- `MEM_SIZE` (R8): addresses 0x000 to 0xFFF. -/
def memSize : Nat := 4096

/-- `ROM_BASE` (R8): where `LoadRom` puts the first byte. -/
def romBase : Nat := 0x200

/-- The longest ROM `LoadRom` admits, 0xE00 bytes (R45, R263). -/
def maxRom : Nat := 0xE00

/-- FREE VALUE (R10, R42, D3; log 1): the `rnd` byte of the n-th `Cycle` for which the schedule
names none. It has no body: a claim about it holds for every byte. -/
opaque rnd : Nat → Byte

end Sys2Proof.Config
end

