-- ==== Sys2Proof/Syntax.lean ====
section
/-! DEFINITION. The 34 instructions of the opcode map (R86), one constructor per row, with the
operand fields of R82 as typed data (R81, R83, R84). -/

namespace Sys2Proof

/-- One constructor per row of R86, in the table's order. `x` and `y` are register numbers, `kk` a
byte, `nnn` a 12-bit address, `n` a row count. `shr` and `shl` carry the field `y`, which is decoded
but not read (R148, R150). -/
inductive Instr where
  /-- `CLS`, 00E0 (R192) -/
  | cls
  /-- `RET`, 00EE (R123) -/
  | ret
  /-- `JP nnn`, 1nnn (R124) -/
  | jp (nnn : Addr)
  /-- `CALL nnn`, 2nnn (R125) -/
  | call (nnn : Addr)
  /-- `SE Vx, kk`, 3xkk (R126) -/
  | seImm (x : Reg) (kk : Byte)
  /-- `SNE Vx, kk`, 4xkk (R127) -/
  | sneImm (x : Reg) (kk : Byte)
  /-- `SE Vx, Vy`, 5xy0 (R128) -/
  | seReg (x y : Reg)
  /-- `LD Vx, kk`, 6xkk (R140) -/
  | ldImm (x : Reg) (kk : Byte)
  /-- `ADD Vx, kk`, 7xkk (R141) -/
  | addImm (x : Reg) (kk : Byte)
  /-- `LD Vx, Vy`, 8xy0 (R142) -/
  | ldReg (x y : Reg)
  /-- `OR Vx, Vy`, 8xy1 (R143) -/
  | orReg (x y : Reg)
  /-- `AND Vx, Vy`, 8xy2 (R144) -/
  | andReg (x y : Reg)
  /-- `XOR Vx, Vy`, 8xy3 (R145) -/
  | xorReg (x y : Reg)
  /-- `ADD Vx, Vy`, 8xy4 (R146) -/
  | addReg (x y : Reg)
  /-- `SUB Vx, Vy`, 8xy5 (R147) -/
  | sub (x y : Reg)
  /-- `SHR Vx`, 8xy6 (R148) -/
  | shr (x y : Reg)
  /-- `SUBN Vx, Vy`, 8xy7 (R149) -/
  | subn (x y : Reg)
  /-- `SHL Vx`, 8xyE (R150) -/
  | shl (x y : Reg)
  /-- `SNE Vx, Vy`, 9xy0 (R129) -/
  | sneReg (x y : Reg)
  /-- `LD I, nnn`, Annn (R170) -/
  | ldI (nnn : Addr)
  /-- `JP V0, nnn`, Bnnn (R130) -/
  | jpV0 (nnn : Addr)
  /-- `RND Vx, kk`, Cxkk (R151) -/
  | rnd (x : Reg) (kk : Byte)
  /-- `DRW Vx, Vy, n`, Dxyn (R193) -/
  | drw (x y : Reg) (n : Nibble)
  /-- `SKP Vx`, Ex9E (R210) -/
  | skp (x : Reg)
  /-- `SKNP Vx`, ExA1 (R211) -/
  | sknp (x : Reg)
  /-- `LD Vx, DT`, Fx07 (R212) -/
  | ldVxDt (x : Reg)
  /-- `LD Vx, K`, Fx0A (R213) -/
  | ldVxK (x : Reg)
  /-- `LD DT, Vx`, Fx15 (R214) -/
  | ldDtVx (x : Reg)
  /-- `LD ST, Vx`, Fx18 (R215) -/
  | ldStVx (x : Reg)
  /-- `ADD I, Vx`, Fx1E (R171) -/
  | addI (x : Reg)
  /-- `LD F, Vx`, Fx29 (R172) -/
  | ldF (x : Reg)
  /-- `LD B, Vx`, Fx33 (R173) -/
  | ldB (x : Reg)
  /-- `LD [I], Vx`, Fx55 (R174) -/
  | storeRegs (x : Reg)
  /-- `LD Vx, [I]`, Fx65 (R175) -/
  | loadRegs (x : Reg)
  deriving DecidableEq, Repr

end Sys2Proof
end

