-- ==== Sys2Proof/WellFormed.lean ====
section
/-! DEFINITION. What is well-formed: a legal instruction word (R86 to R89), written as the opcode map
itself, and a ROM image that fits (R45). An `Instr` has no ill-formed term: every value of each
operand field is legal (R84, R87), and the fields' types admit no other. -/

namespace Sys2Proof

/-- One row of the opcode map (R86): a word `op` selects it when `(op & mask) = value`. -/
structure Row where
  pattern : String
  value   : Word
  mask    : Word
  deriving DecidableEq, Repr

/-- `(op & mask) = match` (R86). -/
def Row.selects (r : Row) (op : Word) : Bool := op &&& r.mask == r.value

/-- The row of R86 an instruction belongs to. -/
def Instr.row : Instr → Row
  | .cls         => ⟨"00E0", 0x00E0, 0xFFFF⟩
  | .ret         => ⟨"00EE", 0x00EE, 0xFFFF⟩
  | .jp _        => ⟨"1nnn", 0x1000, 0xF000⟩
  | .call _      => ⟨"2nnn", 0x2000, 0xF000⟩
  | .seImm _ _   => ⟨"3xkk", 0x3000, 0xF000⟩
  | .sneImm _ _  => ⟨"4xkk", 0x4000, 0xF000⟩
  | .seReg _ _   => ⟨"5xy0", 0x5000, 0xF00F⟩
  | .ldImm _ _   => ⟨"6xkk", 0x6000, 0xF000⟩
  | .addImm _ _  => ⟨"7xkk", 0x7000, 0xF000⟩
  | .ldReg _ _   => ⟨"8xy0", 0x8000, 0xF00F⟩
  | .orReg _ _   => ⟨"8xy1", 0x8001, 0xF00F⟩
  | .andReg _ _  => ⟨"8xy2", 0x8002, 0xF00F⟩
  | .xorReg _ _  => ⟨"8xy3", 0x8003, 0xF00F⟩
  | .addReg _ _  => ⟨"8xy4", 0x8004, 0xF00F⟩
  | .sub _ _     => ⟨"8xy5", 0x8005, 0xF00F⟩
  | .shr _ _     => ⟨"8xy6", 0x8006, 0xF00F⟩
  | .subn _ _    => ⟨"8xy7", 0x8007, 0xF00F⟩
  | .shl _ _     => ⟨"8xyE", 0x800E, 0xF00F⟩
  | .sneReg _ _  => ⟨"9xy0", 0x9000, 0xF00F⟩
  | .ldI _       => ⟨"Annn", 0xA000, 0xF000⟩
  | .jpV0 _      => ⟨"Bnnn", 0xB000, 0xF000⟩
  | .rnd _ _     => ⟨"Cxkk", 0xC000, 0xF000⟩
  | .drw _ _ _   => ⟨"Dxyn", 0xD000, 0xF000⟩
  | .skp _       => ⟨"Ex9E", 0xE09E, 0xF0FF⟩
  | .sknp _      => ⟨"ExA1", 0xE0A1, 0xF0FF⟩
  | .ldVxDt _    => ⟨"Fx07", 0xF007, 0xF0FF⟩
  | .ldVxK _     => ⟨"Fx0A", 0xF00A, 0xF0FF⟩
  | .ldDtVx _    => ⟨"Fx15", 0xF015, 0xF0FF⟩
  | .ldStVx _    => ⟨"Fx18", 0xF018, 0xF0FF⟩
  | .addI _      => ⟨"Fx1E", 0xF01E, 0xF0FF⟩
  | .ldF _       => ⟨"Fx29", 0xF029, 0xF0FF⟩
  | .ldB _       => ⟨"Fx33", 0xF033, 0xF0FF⟩
  | .storeRegs _ => ⟨"Fx55", 0xF055, 0xF0FF⟩
  | .loadRegs _  => ⟨"Fx65", 0xF065, 0xF0FF⟩

/-- The opcode map (R86), rows 1 to 19: the rows of its instructions at zero operands. -/
def opcodeMapLow : List Row :=
  [Instr.cls, .ret, .jp 0, .call 0, .seImm 0 0, .sneImm 0 0, .seReg 0 0, .ldImm 0 0, .addImm 0 0,
   .ldReg 0 0, .orReg 0 0, .andReg 0 0, .xorReg 0 0, .addReg 0 0, .sub 0 0, .shr 0 0, .subn 0 0,
   .shl 0 0, .sneReg 0 0].map Instr.row

/-- The opcode map (R86), rows 20 to 34. -/
def opcodeMapHigh : List Row :=
  [Instr.ldI 0, .jpV0 0, .rnd 0 0, .drw 0 0 0, .skp 0, .sknp 0, .ldVxDt 0, .ldVxK 0, .ldDtVx 0,
   .ldStVx 0, .addI 0, .ldF 0, .ldB 0, .storeRegs 0, .loadRegs 0].map Instr.row

/-- The opcode map, 34 rows (R86). -/
def opcodeMap : List Row := opcodeMapLow ++ opcodeMapHigh

/-- A legal word selects some row (R88, R89): every other word is illegal. -/
def legalWord (op : Word) : Bool := opcodeMap.any fun r => r.selects op

/-- A ROM image that fits between 0x200 and 0xFFF: `L <= 0xE00` (R45, R263). -/
def romFits (image : List Byte) : Bool := decide (image.length ≤ Config.maxRom)

end Sys2Proof
end

