-- ==== Sys2Proof/Decode.lean ====
section
/-! DEFINITION. From bytes to an instruction (R63, R80 to R93), and back. Decoding reads no state
(R93) and is strict: a word outside the 34 patterns is refused by the name of its category (R88). -/

namespace Sys2Proof

/-- Why bytes are no instruction: the bullet of R88 the word falls under, or fewer than two bytes.
All of the first six raise `ILLEGAL_INSTRUCTION` (R231). -/
inductive Illegal where
  | category0 | category5 | category8 | category9 | categoryE | categoryF
  | truncated
  deriving DecidableEq, Repr

/-- `category = op[15:12]` (R82). -/
def category (op : Word) : Nibble := op.extractLsb' 12 4

/-- `x = op[11:8]`, a register number (R82, R84). -/
def fieldX (op : Word) : Reg := (op.extractLsb' 8 4).toFin

/-- `y = op[7:4]`, a register number (R82, R84). -/
def fieldY (op : Word) : Reg := (op.extractLsb' 4 4).toFin

/-- `n = op[3:0]` (R82). -/
def fieldN (op : Word) : Nibble := op.extractLsb' 0 4

/-- `kk = op[7:0]` (R82). -/
def fieldKK (op : Word) : Byte := op.extractLsb' 0 8

/-- `nnn = op[11:0]` (R82). -/
def fieldNNN (op : Word) : Addr := op.extractLsb' 0 12

/-- Category 0: the key is `kk`, and `x` must be 0 (R85, R87). -/
def decode0 (x : Reg) (kk : Byte) : Except Illegal Instr :=
  if x = 0 ∧ kk = 0xE0#8 then .ok .cls
  else if x = 0 ∧ kk = 0xEE#8 then .ok .ret
  else .error .category0

/-- Category 8: the key is `n` (R85, R87). -/
def decode8 (x y : Reg) (n : Nibble) : Except Illegal Instr :=
  match n with
  | 0x0#4 => .ok (.ldReg x y)
  | 0x1#4 => .ok (.orReg x y)
  | 0x2#4 => .ok (.andReg x y)
  | 0x3#4 => .ok (.xorReg x y)
  | 0x4#4 => .ok (.addReg x y)
  | 0x5#4 => .ok (.sub x y)
  | 0x6#4 => .ok (.shr x y)
  | 0x7#4 => .ok (.subn x y)
  | 0xE#4 => .ok (.shl x y)
  | _     => .error .category8

/-- Category E: the key is `kk` (R85, R87). -/
def decodeE (x : Reg) (kk : Byte) : Except Illegal Instr :=
  match kk with
  | 0x9E#8 => .ok (.skp x)
  | 0xA1#8 => .ok (.sknp x)
  | _      => .error .categoryE

/-- Category F: the key is `kk` (R85, R87). -/
def decodeF (x : Reg) (kk : Byte) : Except Illegal Instr :=
  match kk with
  | 0x07#8 => .ok (.ldVxDt x)
  | 0x0A#8 => .ok (.ldVxK x)
  | 0x15#8 => .ok (.ldDtVx x)
  | 0x18#8 => .ok (.ldStVx x)
  | 0x1E#8 => .ok (.addI x)
  | 0x29#8 => .ok (.ldF x)
  | 0x33#8 => .ok (.ldB x)
  | 0x55#8 => .ok (.storeRegs x)
  | 0x65#8 => .ok (.loadRegs x)
  | _      => .error .categoryF

/-- `Decode(op)` (R93), by the two-level dispatch of R85. -/
def decode (op : Word) : Except Illegal Instr :=
  match category op with
  | 0x0#4 => decode0 (fieldX op) (fieldKK op)
  | 0x1#4 => .ok (.jp (fieldNNN op))
  | 0x2#4 => .ok (.call (fieldNNN op))
  | 0x3#4 => .ok (.seImm (fieldX op) (fieldKK op))
  | 0x4#4 => .ok (.sneImm (fieldX op) (fieldKK op))
  | 0x5#4 => if fieldN op = 0#4 then .ok (.seReg (fieldX op) (fieldY op)) else .error .category5
  | 0x6#4 => .ok (.ldImm (fieldX op) (fieldKK op))
  | 0x7#4 => .ok (.addImm (fieldX op) (fieldKK op))
  | 0x8#4 => decode8 (fieldX op) (fieldY op) (fieldN op)
  | 0x9#4 => if fieldN op = 0#4 then .ok (.sneReg (fieldX op) (fieldY op)) else .error .category9
  | 0xA#4 => .ok (.ldI (fieldNNN op))
  | 0xB#4 => .ok (.jpV0 (fieldNNN op))
  | 0xC#4 => .ok (.rnd (fieldX op) (fieldKK op))
  | 0xD#4 => .ok (.drw (fieldX op) (fieldY op) (fieldN op))
  | 0xE#4 => decodeE (fieldX op) (fieldKK op)
  | _     => decodeF (fieldX op) (fieldKK op)

/-- `high_byte << 8 | low_byte` (R63, R91): the byte at the lower address is bits 15 to 8. -/
def wordOfBytes (hi lo : Byte) : Word := hi ++ lo

/-- The two bytes of a word, the one at the lower address first (R63). -/
def bytesOfWord (op : Word) : List Byte := [op.extractLsb' 8 8, op.extractLsb' 0 8]

/-- Decoding a byte stream: the instruction of its first two bytes, and the rest (R80). -/
def decodeBytes : List Byte → Except Illegal (Instr × List Byte)
  | hi :: lo :: rest =>
    match decode (wordOfBytes hi lo) with
    | .ok i => .ok (i, rest)
    | .error e => .error e
  | _ => .error .truncated

/-- The four bits that name a register (R81). -/
def regBits (x : Reg) : Nibble := BitVec.ofFin x

/-- The word of format `nnn` (R81): the category over the address view. -/
def wordNNN (c : Nibble) (nnn : Addr) : Word := c ++ nnn

/-- `x ++ kk`, the low twelve bits of format `xkk` (R81). -/
def lowXKK (x : Reg) (kk : Byte) : Addr := regBits x ++ kk

/-- `y ++ n`, the low byte of formats `xy` and `xyn` (R81). -/
def lowYN (y : Reg) (n : Nibble) : Byte := regBits y ++ n

/-- The word of formats `xkk` and `x` (R81). -/
def wordXKK (c : Nibble) (x : Reg) (kk : Byte) : Word := wordNNN c (lowXKK x kk)

/-- The word of formats `xy` and `xyn` (R81). -/
def wordXYN (c : Nibble) (x y : Reg) (n : Nibble) : Word := wordXKK c x (lowYN y n)

/-- The word of an instruction, from the pattern column of R86. -/
def encode : Instr → Word
  | .cls         => 0x00E0
  | .ret         => 0x00EE
  | .jp nnn      => wordNNN 0x1 nnn
  | .call nnn    => wordNNN 0x2 nnn
  | .seImm x kk  => wordXKK 0x3 x kk
  | .sneImm x kk => wordXKK 0x4 x kk
  | .seReg x y   => wordXYN 0x5 x y 0x0
  | .ldImm x kk  => wordXKK 0x6 x kk
  | .addImm x kk => wordXKK 0x7 x kk
  | .ldReg x y   => wordXYN 0x8 x y 0x0
  | .orReg x y   => wordXYN 0x8 x y 0x1
  | .andReg x y  => wordXYN 0x8 x y 0x2
  | .xorReg x y  => wordXYN 0x8 x y 0x3
  | .addReg x y  => wordXYN 0x8 x y 0x4
  | .sub x y     => wordXYN 0x8 x y 0x5
  | .shr x y     => wordXYN 0x8 x y 0x6
  | .subn x y    => wordXYN 0x8 x y 0x7
  | .shl x y     => wordXYN 0x8 x y 0xE
  | .sneReg x y  => wordXYN 0x9 x y 0x0
  | .ldI nnn     => wordNNN 0xA nnn
  | .jpV0 nnn    => wordNNN 0xB nnn
  | .rnd x kk    => wordXKK 0xC x kk
  | .drw x y n   => wordXYN 0xD x y n
  | .skp x       => wordXKK 0xE x 0x9E
  | .sknp x      => wordXKK 0xE x 0xA1
  | .ldVxDt x    => wordXKK 0xF x 0x07
  | .ldVxK x     => wordXKK 0xF x 0x0A
  | .ldDtVx x    => wordXKK 0xF x 0x15
  | .ldStVx x    => wordXKK 0xF x 0x18
  | .addI x      => wordXKK 0xF x 0x1E
  | .ldF x       => wordXKK 0xF x 0x29
  | .ldB x       => wordXKK 0xF x 0x33
  | .storeRegs x => wordXKK 0xF x 0x55
  | .loadRegs x  => wordXKK 0xF x 0x65

/-- The bytes of an instruction as memory holds them (R63, R80). -/
def encodeBytes (i : Instr) : List Byte := bytesOfWord (encode i)

/-- The word whose bits are the low `nbits` of `w`, every bit above them 0. -/
def tableWord (nbits w : Nat) : Word := BitVec.ofNat 16 (w % 2 ^ nbits)

/-- The instruction the decoder reads from an instruction whose bits are `w`, numbered as
spec/opcode_table.json numbers them: its two bytes are laid out as memory stores them (R63) and
given to the decoder. -/
def decodeTableWord (nbits w : Nat) : Option Instr :=
  match decodeBytes (bytesOfWord (tableWord nbits w)) with
  | .ok (i, _) => some i
  | .error _ => none

end Sys2Proof
end

