-- ==== Sys2Proof/Machine/State.lean ====
section
/-! DEFINITION. The whole state of CORE (R20), the host's events (R40), and the outcome of a step. -/

namespace Sys2Proof.Machine

/-- `fault_cause` (R34, R231). The codes 0 to 6 are `FaultCause.code` (Machine/Ops.lean); code 7 is
never written. -/
inductive FaultCause where
  /-- 0: no fault has occurred -/
  | none
  /-- 1: `pc0 > 0xFFE` (R91) -/
  | fetchOutOfBounds
  /-- 2: the word matches no row of R86 (R88) -/
  | illegalInstruction
  /-- 3: `2nnn` with `sp = 16` (R121) -/
  | stackOverflow
  /-- 4: `00EE` with `sp = 0` (R122) -/
  | stackUnderflow
  /-- 5: an effective address above 0xFFF (R62) -/
  | dataOutOfBounds
  /-- 6: `Ex9E`, `ExA1` with `V[x] > 0xF` (R216) -/
  | keyIndexOutOfRange
  deriving DecidableEq, Repr

/-- An atomic event from the host (R40). -/
inductive Event where
  /-- `Reset` (R41) -/
  | reset
  /-- `LoadRom(image)` (R45) -/
  | loadRom (image : List Byte)
  /-- `SetKeys(k)` (R44) -/
  | setKeys (k : Word)
  /-- `Cycle(rnd)` (R42) -/
  | cycle (rnd : Byte)
  /-- `Tick` (R43, R239) -/
  | tick
  deriving DecidableEq, Repr

/-- Memory as the bytes that differ from the reset contents: addresses strictly rising (Machine/
Memory.lean holds the form and the reset contents). -/
abbrev Memory := List Host.Cell

/-- The display (R33): row `r`, then column `c`; `true` is the pixel value 1, lit (R46). -/
abbrev Display := Vector (Vector Bool 64) 32

/-- The state of CORE (R20). The last three fields are the model's own: they hold the host's inputs
of R10 as plain data. -/
structure State where
  /-- `V[0]` to `V[15]` (R21); VF is `V[15]` (R22) -/
  v : Vector Byte 16
  /-- `I` (R25) -/
  idx : Word
  /-- `pc` (R24) -/
  pc : Word
  /-- `Stack[0]` to `Stack[15]` (R26) -/
  stack : Vector Word 16
  /-- `sp`, 0 to 16 (R27; log 9) -/
  sp : Fin 17
  /-- `DT` (R28) -/
  dt : Byte
  /-- `ST` (R29) -/
  st : Byte
  /-- the 4096 bytes (R30, R60) -/
  mem : Memory
  /-- `Key[0]` to `Key[15]`, true = pressed (R32) -/
  keys : Vector Bool 16
  /-- `Disp[r][c]` (R33) -/
  disp : Display
  /-- `halted` (R34) -/
  halted : Bool
  /-- `fault_cause` (R34) -/
  faultCause : FaultCause
  /-- `fault_opcode` (R34) -/
  faultOpcode : Word
  /-- `fault_addr` (R34) -/
  faultAddr : Word
  /-- `key_wait` (R35) -/
  keyWait : Bool
  /-- whether a `Cycle` has been performed since the last `Reset` (R45). DEDUCED (log 5). -/
  cycled : Bool
  /-- DESIGN CHOICE (log 2): the events the host is still to deliver, oldest first (R10, R47) -/
  events : List Event
  /-- DESIGN CHOICE (log 1): the byte the `Cycle` in progress carries; none where the schedule names
  none and the byte is the free value (R10, R42) -/
  rndIn : Option Byte
  /-- DESIGN CHOICE (log 1): the argument of the free value `Config.rnd` (R10); advanced by every
  `Cycle` whose byte the schedule does not name -/
  draws : Nat
  deriving DecidableEq, Repr

/-- The reasons a step could stop for good. There is none: every error of the spec is a fault entry
(R232), which is a next state with `halted = 1` and not an end of the model's run (log 3). Safe. -/
inductive Fault where
  deriving DecidableEq, Repr

/-- Why an instruction has no meaning in the model. -/
inductive Refusal where
  /-- Raised by an arm of `exec` for an instruction not modelled yet, by its table mnemonic; no arm
  raises it now. Safe: the model stops. -/
  | notModelled (mnemonic : String)
  deriving DecidableEq, Repr

/-- What a meaning answers. -/
abbrev Result := Host.Outcome State Fault Refusal

/-- The state after `Reset` (R38, R260): `pc` at 0x200, everything else 0, memory at its reset
contents (nothing listed). The host has scheduled nothing (log 2). -/
def State.reset : State where
  v           := Vector.replicate 16 0
  idx         := 0
  pc          := 0x200
  stack       := Vector.replicate 16 0
  sp          := 0
  dt          := 0
  st          := 0
  mem         := []
  keys        := Vector.replicate 16 false
  disp        := Vector.replicate 32 (Vector.replicate 64 false)
  halted      := false
  faultCause  := .none
  faultOpcode := 0
  faultAddr   := 0
  keyWait     := false
  cycled      := false
  events      := []
  rndIn       := none
  draws       := 0

end Sys2Proof.Machine
end

