-- ==== Sys2Proof/Machine/Ops.lean ====
section
/-! DEFINITION. The named operations over the state: the writes, the commit (R92, R96, R97), the
fetch (R91), the call stack (R121, R122), fault entry (R232), and the start of a `Cycle`. -/

namespace Sys2Proof.Machine

/-- `V[x] <- b` (R12, R21). -/
def State.setV (s : State) (x : Reg) (b : Byte) : State := { s with v := s.v.set x.val b x.isLt }

/-- All of V at once (`Fx65`, R175). -/
def State.setRegs (s : State) (v : Vector Byte 16) : State := { s with v := v }

/-- `I <- a` (R25). -/
def State.setIdx (s : State) (a : Word) : State := { s with idx := a }

/-- `pc <- a` (R24). -/
def State.setPc (s : State) (a : Word) : State := { s with pc := a }

/-- The stack and its pointer (R26, R27). -/
def State.setStack (s : State) (st : Vector Word 16) (sp : Fin 17) : State :=
  { s with stack := st, sp := sp }

/-- `DT <- b` (R28). -/
def State.setDt (s : State) (b : Byte) : State := { s with dt := b }

/-- `ST <- b` (R29). -/
def State.setSt (s : State) (b : Byte) : State := { s with st := b }

/-- The memory array (R30). -/
def State.setMem (s : State) (m : Memory) : State := { s with mem := m }

/-- The keypad (R32). -/
def State.setKeys (s : State) (k : Vector Bool 16) : State := { s with keys := k }

/-- The display (R33). -/
def State.setDisp (s : State) (d : Display) : State := { s with disp := d }

/-- `key_wait <- w` (R97). -/
def State.setKeyWait (s : State) (w : Bool) : State := { s with keyWait := w }

/-- The host's schedule (log 2). -/
def State.setEvents (s : State) (es : List Event) : State := { s with events := es }

/-- `pc1 = pc0 + 2` (R13, R92). In every state an instruction is executed from by the engine,
`pc0 <= 0xFFE` and the sum does not wrap (R92; log 13). -/
def State.pc1 (s : State) : Word := s.pc + 2

/-- What every completing instruction writes: `pc <- pc1` first (R92), and `key_wait <- 0` (R97),
which only a waiting `Fx0A` replaces by 1. -/
def State.commit (s : State) : State := { s with pc := s.pc1, keyWait := false }

/-- The 3-bit code of a fault cause (R34, R231). -/
def FaultCause.code : FaultCause → BitVec 3
  | .none => 0
  | .fetchOutOfBounds => 1
  | .illegalInstruction => 2
  | .stackOverflow => 3
  | .stackUnderflow => 4
  | .dataOutOfBounds => 5
  | .keyIndexOutOfRange => 6

/-- Fault entry (R232): everything the cycle would have written is discarded, and the status
registers of R34 and `key_wait` are written. `pc` stays at the faulting instruction. -/
def State.enterFault (s : State) (op : Word) (cause : FaultCause) (addr : Word) : State :=
  { s with halted := true, faultCause := cause, faultOpcode := op, faultAddr := addr,
           keyWait := false }

/-- `raise Fault(cause, addr)` for the fetched word `op` (R12, R232), from the state at the start
of the cycle. It is a next state: the run goes on, halted (R234; log 3). -/
def raise (op : Word) (cause : FaultCause) (addr : Word) (s : State) : Result :=
  .next (s.enterFault op cause addr)

/-- The word at `pc`, high byte first (R63, R91); none where the second byte would leave memory,
`pc > 0xFFE`. -/
def State.fetch (s : State) : Option Word :=
  if 0xFFE < s.pc.toNat then none
  else some (wordOfBytes (s.mem.read s.pc.toNat) (s.mem.read (s.pc.toNat + 1)))

/-- The start of a `Cycle` that is not halted: the byte it carries (none: the free value, for which
the counter advances, log 1), and that a `Cycle` has now been performed (R42, R45). -/
def State.beginCycle (s : State) (rnd : Option Byte) : State :=
  { s with rndIn := rnd, cycled := true,
           draws := match rnd with
             | some _ => s.draws
             | none => s.draws + 1 }

/-- `Push(v)` (R121): the slot at the old depth, then the depth one more; none where `sp = 16`. -/
def State.push (s : State) (v : Word) : Option (Vector Word 16 × Fin 17) :=
  if h : s.sp.val < 16 then
    some (s.stack.set s.sp.val v h, ⟨s.sp.val + 1, by omega⟩)
  else none

/-- `Pop()` (R122): the newest entry and the depth one less, the slot not cleared; none where
`sp = 0`. -/
def State.pop (s : State) : Option (Word × Fin 17) :=
  if h : 0 < s.sp.val then
    some (s.stack[s.sp.val - 1], ⟨s.sp.val - 1, by omega⟩)
  else none

end Sys2Proof.Machine
end

