-- ==== Sys2Proof/Machine/Operands.lean ====
section
/-! DEFINITION. Every operand form: registers and immediates (R83, R84), the random byte (R42), the
indexed data addresses and their bounds check (R62, R176), key numbers (R216), and the addresses an
instruction computes. All are read from the state at the start of the cycle (R95). -/

namespace Sys2Proof.Machine

/-- `V[x]` (R12). -/
def State.reg (s : State) (x : Reg) : Byte := s.v[x]

/-- `zext_16(nnn)` (R83). -/
def zextAddr (nnn : Addr) : Word := nnn.zeroExtend 16

/-- `zext_16(a)` of a byte (R130, R231). -/
def zextByte (a : Byte) : Word := a.zeroExtend 16

/-- The `rnd` byte of the `Cycle` in progress (R42, R151): the one the schedule names, or the free
value (R10, D3; log 1). -/
def State.rndByte (s : State) : Byte :=
  match s.rndIn with
  | some r => r
  | none => Config.rnd s.draws

/-- The target of `Bnnn`: `zext_16(nnn) + zext_16(V[0])`, not masked (R130, D17). -/
def State.computedTarget (s : State) (nnn : Addr) : Word := zextAddr nnn + zextByte (s.reg 0)

/-- The address of a glyph, `FONT_BASE + 5 * a`, `a` not masked (R172, D24). -/
def glyphAddr (a : Byte) : Word := BitVec.ofNat 16 (fontBase + 5 * a.toNat)

/-- The effective address of access number `k`: `I + k`, a natural that is not wrapped (R176). -/
def State.dataAddr (s : State) (k : Nat) : Nat := s.idx.toNat + k

/-- The bounds check before any access (R62): for `count` accesses at `I`, `I + 1`, ..., the lowest
address above 0xFFF where there is one, `max(I, 0x1000)`. -/
def State.dataFault (s : State) (count : Nat) : Option Word :=
  if 0 < count ∧ 0xFFF < s.dataAddr (count - 1) then
    some (BitVec.ofNat 16 (max s.idx.toNat 0x1000))
  else none

/-- An instruction with `count` data accesses: `DATA_OUT_OF_BOUNDS` and no access (R62, R232), or
the state it completes in. -/
def accessData (op : Word) (count : Nat) (s done : State) : Result :=
  match s.dataFault count with
  | some a => raise op .dataOutOfBounds a s
  | none => .next done

/-- The hundreds, tens and ones digit of a byte (R173). -/
def bcdDigits (v : Byte) : List Byte :=
  [BitVec.ofNat 8 (v.toNat / 100), BitVec.ofNat 8 (v.toNat / 10 % 10),
   BitVec.ofNat 8 (v.toNat % 10)]

/-- `V[0]` to `V[x]`, in that order (R84, R174). -/
def State.regsUpTo (s : State) (x : Reg) : List Byte := s.v.toList.take (x.val + 1)

/-- The registers after `V[0]` to `V[x]` are loaded from `I` upwards (R84, R175). -/
def State.regsLoaded (s : State) (x : Reg) : Vector Byte 16 :=
  Vector.ofFn fun r : Reg => if r.val ≤ x.val then s.mem.read (s.dataAddr r.val) else s.reg r

/-- `Key[k]` for a key number `k`; none where `k > 0xF` names no key (R216). -/
def State.keyAt (s : State) (k : Byte) : Option Bool :=
  if h : k.toNat < 16 then some s.keys[k.toNat] else none

/-- The least `k` with `Key[k] = 1`; none where no key is pressed (R213, D23). -/
def State.leastKey (s : State) : Option (Fin 16) :=
  (List.finRange 16).find? fun k => s.keys[k]

/-- A skip: `pc <- pc1 + 2` if the condition holds (R120, R126 to R129, R210, R211). -/
def skipIf (c : Bool) (s : State) : Result :=
  .next (if c then s.commit.setPc (s.pc1 + 2) else s.commit)

/-- A skip on a key (R210, R211): `KEY_INDEX_OUT_OF_RANGE` with the key number where it names no key
(R216). -/
def skipOnKey (op : Word) (k : Byte) (pressed : Bool) (s : State) : Result :=
  match s.keyAt k with
  | none => raise op .keyIndexOutOfRange (zextByte k) s
  | some b => skipIf (b == pressed) s

end Sys2Proof.Machine
end

