-- ==== Sys2Proof/Machine/Flags.lean ====
section
/-! DEFINITION. Every flag computation (R22): VF as carry, not-borrow, shifted-out bit and
collision, and the order of the flag write and the result write (R96). -/

namespace Sys2Proof.Machine

/-- VF, `V[0xF]` (R22). -/
def vf : Reg := 15

/-- The byte of a flag: 1 or 0 (R146 to R150, R193). -/
def flagByte (b : Bool) : Byte := if b then 1 else 0

/-- Carry: 1 if and only if `a + b > 255` (R146). -/
def carryFlag (a b : Byte) : Bool := decide (255 < a.toNat + b.toNat)

/-- Not-borrow of `a - b`: 1 if and only if `a > b`, strictly (R147, R149). -/
def notBorrowFlag (a b : Byte) : Bool := decide (b.toNat < a.toNat)

/-- The bit a right shift drops, `a & 1` (R148). -/
def lowBitFlag (a : Byte) : Bool := a.getLsbD 0

/-- The bit a left shift drops, `(a >> 7) & 1` (R150). -/
def highBitFlag (a : Byte) : Bool := a.getLsbD 7

/-- `V[0xF] <- flag`, then `V[x] <- r`: with `x = 0xF` the result stays (R96, R154, D14). -/
def State.setFlagged (s : State) (flag : Bool) (x : Reg) (r : Byte) : State :=
  (s.setV vf (flagByte flag)).setV x r

/-- A completing ALU instruction without a flag (R140 to R145, R151). -/
def writeReg (x : Reg) (r : Byte) (s : State) : Result := .next (s.commit.setV x r)

/-- A completing ALU instruction with a flag (R146 to R150). -/
def writeFlagged (flag : Bool) (x : Reg) (r : Byte) (s : State) : Result :=
  .next (s.commit.setFlagged flag x r)

end Sys2Proof.Machine
end

