-- ==== Sys2Proof/Machine/Alu.lean ====
section
/-! DEFINITION. Register loads and the ALU (spec/41_alu.md, R140 to R155). Bytes are unsigned and
wrap modulo 256 (R152). -/

namespace Sys2Proof.Machine

/-- `LD Vx, kk` (R140). -/
def execLdImm (x : Reg) (kk : Byte) (s : State) : Result := writeReg x kk s

/-- `ADD Vx, kk` (R141): no flag. -/
def execAddImm (x : Reg) (kk : Byte) (s : State) : Result := writeReg x (s.reg x + kk) s

/-- `LD Vx, Vy` (R142). -/
def execLdReg (x y : Reg) (s : State) : Result := writeReg x (s.reg y) s

/-- `OR Vx, Vy` (R143): VF is not cleared. -/
def execOrReg (x y : Reg) (s : State) : Result := writeReg x (s.reg x ||| s.reg y) s

/-- `AND Vx, Vy` (R144): VF is not cleared. -/
def execAndReg (x y : Reg) (s : State) : Result := writeReg x (s.reg x &&& s.reg y) s

/-- `XOR Vx, Vy` (R145): VF is not cleared. -/
def execXorReg (x y : Reg) (s : State) : Result := writeReg x (s.reg x ^^^ s.reg y) s

/-- `ADD Vx, Vy` (R146): VF = carry. -/
def execAddReg (x y : Reg) (s : State) : Result :=
  writeFlagged (carryFlag (s.reg x) (s.reg y)) x (s.reg x + s.reg y) s

/-- `SUB Vx, Vy` (R147): VF = not-borrow, `a > b`. -/
def execSub (x y : Reg) (s : State) : Result :=
  writeFlagged (notBorrowFlag (s.reg x) (s.reg y)) x (s.reg x - s.reg y) s

/-- `SHR Vx` (R148): VF = bit 0 of `a`; the field `y` is not read. -/
def execShr (x _y : Reg) (s : State) : Result :=
  writeFlagged (lowBitFlag (s.reg x)) x (s.reg x >>> 1) s

/-- `SUBN Vx, Vy` (R149): VF = not-borrow, `b > a`. -/
def execSubn (x y : Reg) (s : State) : Result :=
  writeFlagged (notBorrowFlag (s.reg y) (s.reg x)) x (s.reg y - s.reg x) s

/-- `SHL Vx` (R150): VF = bit 7 of `a`; the field `y` is not read. -/
def execShl (x _y : Reg) (s : State) : Result :=
  writeFlagged (highBitFlag (s.reg x)) x (s.reg x <<< 1) s

/-- `RND Vx, kk` (R151): the byte of the `Cycle` event, masked. -/
def execRnd (x : Reg) (kk : Byte) (s : State) : Result := writeReg x (s.rndByte &&& kk) s

end Sys2Proof.Machine
end

