-- ==== Sys2Proof/Machine/Control.lean ====
section
/-! DEFINITION. Control transfer and the call stack (spec/40_control.md, R120 to R130). -/

namespace Sys2Proof.Machine

/-- `RET` (R123): `STACK_UNDERFLOW` where `sp = 0`. -/
def execRet (s : State) : Result :=
  match s.pop with
  | none => raise (encode .ret) .stackUnderflow 0 s
  | some (t, sp) => .next ((s.commit.setStack s.stack sp).setPc t)

/-- `JP nnn` (R124). -/
def execJp (nnn : Addr) (s : State) : Result := .next (s.commit.setPc (zextAddr nnn))

/-- `CALL nnn` (R125): `STACK_OVERFLOW` where `sp = 16`. -/
def execCall (nnn : Addr) (s : State) : Result :=
  match s.push s.pc1 with
  | none => raise (encode (.call nnn)) .stackOverflow 0 s
  | some (st, sp) => .next ((s.commit.setStack st sp).setPc (zextAddr nnn))

/-- `SE Vx, kk` (R126). -/
def execSeImm (x : Reg) (kk : Byte) (s : State) : Result := skipIf (s.reg x == kk) s

/-- `SNE Vx, kk` (R127). -/
def execSneImm (x : Reg) (kk : Byte) (s : State) : Result := skipIf (s.reg x != kk) s

/-- `SE Vx, Vy` (R128). -/
def execSeReg (x y : Reg) (s : State) : Result := skipIf (s.reg x == s.reg y) s

/-- `SNE Vx, Vy` (R129). -/
def execSneReg (x y : Reg) (s : State) : Result := skipIf (s.reg x != s.reg y) s

/-- `JP V0, nnn` (R130). -/
def execJpV0 (nnn : Addr) (s : State) : Result := .next (s.commit.setPc (s.computedTarget nnn))

end Sys2Proof.Machine
end

