-- ==== Sys2Proof/Machine/Display.lean ====
section
/-! DEFINITION. The display compositor (spec/43_display.md, R190 to R195): the loop of R193, bit by
bit. -/

namespace Sys2Proof.Machine

/-- The row a sprite row falls on, `mod 32` (R190, C1). -/
def wrapRow (r : Nat) : Fin 32 := ⟨r % 32, Nat.mod_lt r (by decide)⟩

/-- The column a sprite column falls on, `mod 64` (R190). -/
def wrapCol (c : Nat) : Fin 64 := ⟨c % 64, Nat.mod_lt c (by decide)⟩

/-- `Disp[r][c]` (R12). -/
def Display.pixel (d : Display) (r : Fin 32) (c : Fin 64) : Bool := d[r][c]

/-- `Disp[r][c] <- b` (R33). -/
def Display.setPixel (d : Display) (r : Fin 32) (c : Fin 64) (b : Bool) : Display :=
  d.set r.val (d[r].set c.val b c.isLt) r.isLt

/-- The display with every pixel 0 (R192). -/
def blankDisplay : Display := Vector.replicate 32 (Vector.replicate 64 false)

/-- Bit of a sprite row at column offset `c`: bit 7 is the leftmost pixel (R191, D20). -/
def spriteBit (byte : Byte) (c : Nat) : Bool := byte.getLsbD (7 - c)

/-- XOR one sprite bit into the display, with the collision so far (R193). -/
def drawBit (bit : Bool) (r : Fin 32) (c : Fin 64) (acc : Display × Bool) : Display × Bool :=
  if bit then (acc.1.setPixel r c (!acc.1.pixel r c), acc.2 || acc.1.pixel r c) else acc

/-- The inner loop of R193: the eight columns of one sprite row. -/
def drawRow (byte : Byte) (row cx : Nat) (acc : Display × Bool) : Display × Bool :=
  (List.range 8).foldl
    (fun acc c => drawBit (spriteBit byte c) (wrapRow row) (wrapCol (cx + c)) acc) acc

/-- The outer loop of R193: `n` sprite rows from the address `base`. -/
def drawSprite (m : Memory) (base n cx cy : Nat) (d : Display) : Display × Bool :=
  (List.range n).foldl (fun acc r => drawRow (m.read (base + r)) (cy + r) cx acc) (d, false)

/-- The display and the collision flag `Dxyn` computes, all operands read first (R95, R193). -/
def State.drawn (s : State) (x y : Reg) (n : Nibble) : Display × Bool :=
  drawSprite s.mem (s.dataAddr 0) n.toNat (s.reg x).toNat (s.reg y).toNat s.disp

/-- `CLS` (R192). -/
def execCls (s : State) : Result := .next (s.commit.setDisp blankDisplay)

/-- `DRW Vx, Vy, n` (R193): the pixels, then VF; or `DATA_OUT_OF_BOUNDS`. With `n = 0` nothing is
read or drawn and VF is 0 (D21). -/
def execDrw (x y : Reg) (n : Nibble) (s : State) : Result :=
  accessData (encode (.drw x y n)) n.toNat s
    ((s.commit.setDisp (s.drawn x y n).1).setV vf (flagByte (s.drawn x y n).2))

end Sys2Proof.Machine
end

