-- ==== Sys2Proof/Machine/Index.lean ====
section
/-! DEFINITION. The index register and memory instructions (spec/42_index_memory.md, R170 to R176).
`I` is never changed by an access (R176), and VF never written as a flag. -/

namespace Sys2Proof.Machine

/-- `LD I, nnn` (R170). -/
def execLdI (nnn : Addr) (s : State) : Result := .next (s.commit.setIdx (zextAddr nnn))

/-- `ADD I, Vx` (R171): modulo 2^16, VF not written (D15). -/
def execAddI (x : Reg) (s : State) : Result :=
  .next (s.commit.setIdx (s.idx + zextByte (s.reg x)))

/-- `LD F, Vx` (R172). -/
def execLdF (x : Reg) (s : State) : Result := .next (s.commit.setIdx (glyphAddr (s.reg x)))

/-- `LD B, Vx` (R173): three stores at `I`, or `DATA_OUT_OF_BOUNDS`. -/
def execLdB (x : Reg) (s : State) : Result :=
  accessData (encode (.ldB x)) 3 s
    (s.commit.setMem (s.mem.writeBytes (s.dataAddr 0) (bcdDigits (s.reg x))))

/-- `LD [I], Vx` (R174): `x + 1` stores at `I`, or `DATA_OUT_OF_BOUNDS`. -/
def execStoreRegs (x : Reg) (s : State) : Result :=
  accessData (encode (.storeRegs x)) (x.val + 1) s
    (s.commit.setMem (s.mem.writeBytes (s.dataAddr 0) (s.regsUpTo x)))

/-- `LD Vx, [I]` (R175): `x + 1` loads at `I`, or `DATA_OUT_OF_BOUNDS`. -/
def execLoadRegs (x : Reg) (s : State) : Result :=
  accessData (encode (.loadRegs x)) (x.val + 1) s (s.commit.setRegs (s.regsLoaded x))

end Sys2Proof.Machine
end

