-- ==== Sys2Proof/Machine/KeysTimers.lean ====
section
/-! DEFINITION. Keypad and timer instructions (spec/44_keys_timers.md, R210 to R216). -/

namespace Sys2Proof.Machine

/-- `SKP Vx` (R210). -/
def execSkp (x : Reg) (s : State) : Result := skipOnKey (encode (.skp x)) (s.reg x) true s

/-- `SKNP Vx` (R211). -/
def execSknp (x : Reg) (s : State) : Result := skipOnKey (encode (.sknp x)) (s.reg x) false s

/-- `LD Vx, DT` (R212). -/
def execLdVxDt (x : Reg) (s : State) : Result := writeReg x s.dt s

/-- `LD Vx, K` (R213): the least key down, or `pc` back to this instruction with `key_wait = 1`
(R97). -/
def execLdVxK (x : Reg) (s : State) : Result :=
  match s.leastKey with
  | none => .next ((s.commit.setPc s.pc).setKeyWait true)
  | some k => writeReg x (BitVec.ofNat 8 k.val) s

/-- `LD DT, Vx` (R214). -/
def execLdDtVx (x : Reg) (s : State) : Result := .next (s.commit.setDt (s.reg x))

/-- `LD ST, Vx` (R215). -/
def execLdStVx (x : Reg) (s : State) : Result := .next (s.commit.setSt (s.reg x))

end Sys2Proof.Machine
end

