-- ==== Sys2Proof/Machine/Events.lean ====
section
/-! DEFINITION. The host's events other than `Cycle` (R41, R43 to R45, R239), each an atomic
transition (R40), and the outputs the host reads (R46). -/

namespace Sys2Proof.Machine

/-- `Reset` (R41): the reset state of R38. The model's own fields are the host's and stay: the rest
of the schedule, and the free values already drawn (log 6). -/
def State.onReset (s : State) : State :=
  { State.reset with events := s.events, rndIn := s.rndIn, draws := s.draws }

/-- Whether `LoadRom(image)` is admitted (R45, D25, D26). -/
def State.admitsRom (s : State) (image : List Byte) : Bool := romFits image && !s.cycled

/-- `LoadRom(image)` (R45): the bytes at 0x200 upwards, or, where it is not admitted, rejected: it
changes nothing (log 4). -/
def State.onLoadRom (s : State) (image : List Byte) : State :=
  if s.admitsRom image then s.setMem (s.mem.writeBytes Config.romBase image) else s

/-- `SetKeys(k)` (R44): `Key[i] <- k[i]` for each `i`, halted or not (R234). -/
def State.onSetKeys (s : State) (k : Word) : State :=
  s.setKeys (Vector.ofFn fun i : Fin 16 => k.getLsbD i.val)

/-- A timer decremented toward zero, never below it (R28, R239). -/
def decTimer (t : Byte) : Byte := if t = 0 then 0 else t - 1

/-- `Tick` (R239): both timers, unless halted (R234). -/
def State.onTick (s : State) : State :=
  if s.halted then s else (s.setDt (decTimer s.dt)).setSt (decTimer s.st)

/-- `sound_on` (R46, R241). -/
def State.soundOn (s : State) : Bool := decide (0 < s.st.toNat)

/-- `display_out` at a pixel (R46). -/
def State.displayOut (s : State) (r : Fin 32) (c : Fin 64) : Bool := s.disp[r][c]

end Sys2Proof.Machine
end

