-- ==== Sys2Proof/Machine/Engine.lean ====
section
/-! DEFINITION. The cycle engine (R90), and the delivery of one event (R40). -/

namespace Sys2Proof.Machine

/-- One fetched word (R90, R93): decode and execute, or `ILLEGAL_INSTRUCTION` (R88). -/
def runWord (op : Word) (s : State) : Result :=
  match decode op with
  | .ok i => exec i s
  | .error _ => raise op .illegalInstruction 0 s

/-- `Cycle(rnd)` (R42, R90), the checks in the order of R235: halted (nothing happens, R234), then
the fetch (R91), then the decoder, then the instruction's own condition. -/
def cycle (rnd : Option Byte) (s : State) : Result :=
  if s.halted then .next s
  else
    match s.fetch with
    | none => raise 0 .fetchOutOfBounds s.pc (s.beginCycle rnd)
    | some op => runWord op (s.beginCycle rnd)

/-- One event from the host (R40). -/
def deliver (e : Event) (s : State) : Result :=
  match e with
  | .reset => .next s.onReset
  | .loadRom image => .next (s.onLoadRom image)
  | .setKeys k => .next (s.onSetKeys k)
  | .cycle rnd => cycle (some rnd) s
  | .tick => .next s.onTick

/-- The next event of the schedule, taken off it; with the schedule empty the host sends a `Cycle`,
its byte the free value (R10, R47; log 1, log 2). -/
def nextEvent (s : State) : Result :=
  match s.events with
  | [] => cycle none s
  | e :: es => deliver e (s.setEvents es)

/-- A state whose next step is a `Cycle` that fetches the word `op`: nothing scheduled before it,
not halted, `pc` where a fetch is possible (unchanged if it is), and the word's two bytes at `pc`
(R63). Log 10. -/
def State.placeWord (s : State) (op : Word) : State :=
  let pc : Word := if 0xFFE < s.pc.toNat then 0x200 else s.pc
  { s with events := [], halted := false, pc := pc,
           mem := s.mem.writeBytes pc.toNat (bytesOfWord op) }

end Sys2Proof.Machine
end

