-- ==== Sys2Proof/Safety.lean ====
section
/-! DEFINITION. The terms claims are stated in: frames, what a completing or a faulting instruction
leaves, the fault conditions of R231, the end of a run (R49), and the invariant of the machine. They
are written from the spec's rules in its own arithmetic on naturals, beside the model and not
through its operations. -/

namespace Sys2Proof.Machine

/-- The parts of the state a frame speaks of; `pc` and `key_wait`, which every completing cycle
writes (R92, R97), are always stated apart. -/
inductive Part where
  | regs | idx | stack | dt | st | mem | disp | keys | fault
  deriving DecidableEq, Repr

/-- From `s` to `t` every part is unchanged except those listed: all registers, `I`, the stack and
`sp`, the timers, EVERY byte of memory, the display, the keypad, the four fault registers; and the
model's own fields always. -/
def SameExcept (ps : List Part) (s t : State) : Prop :=
  (.regs ∉ ps → t.v = s.v) ∧
  (.idx ∉ ps → t.idx = s.idx) ∧
  (.stack ∉ ps → t.sp = s.sp ∧ t.stack = s.stack) ∧
  (.dt ∉ ps → t.dt = s.dt) ∧
  (.st ∉ ps → t.st = s.st) ∧
  (.mem ∉ ps → ∀ a, t.mem.read a = s.mem.read a) ∧
  (.disp ∉ ps → t.disp = s.disp) ∧
  (.keys ∉ ps → t.keys = s.keys) ∧
  (.fault ∉ ps → t.halted = s.halted ∧ t.faultCause = s.faultCause ∧
    t.faultOpcode = s.faultOpcode ∧ t.faultAddr = s.faultAddr) ∧
  t.cycled = s.cycled ∧ t.events = s.events ∧ t.rndIn = s.rndIn ∧ t.draws = s.draws

/-- A completing cycle that goes to the next word: `pc <- pc0 + 2`, `key_wait <- 0` (R92, R97). -/
def Advanced (s t : State) : Prop := t.pc = s.pc + 2 ∧ t.keyWait = false

/-- A completing cycle that goes to `a` instead (R92). -/
def WentTo (a : Word) (t : State) : Prop := t.pc = a ∧ t.keyWait = false

/-- `V[x]` holds the byte whose value is `b`, and every other register is as before. -/
def OnlyRegister (x : Reg) (b : Nat) (s t : State) : Prop :=
  t.v[x].toNat = b ∧ ∀ r : Reg, r ≠ x → t.v[r] = s.v[r]

/-- `V[x]` holds the result, and VF the flag unless `x = 0xF`, where the result replaces it (R96);
every other register is as before. -/
def ResultAndFlag (x : Reg) (b : Nat) (flag : Bool) (s t : State) : Prop :=
  t.v[x].toNat = b ∧ (x ≠ 15 → t.v[(15 : Reg)].toNat = flag.toNat) ∧
  ∀ r : Reg, r ≠ x → r ≠ 15 → t.v[r] = s.v[r]

/-- Fault entry (R232): the status registers written, and nothing else changed; `pc` stays. -/
def Faulted (op : Word) (cause : FaultCause) (addr : Word) (s t : State) : Prop :=
  t.halted = true ∧ t.faultCause = cause ∧ t.faultOpcode = op ∧ t.faultAddr = addr ∧
  t.keyWait = false ∧ t.pc = s.pc ∧ SameExcept [.fault] s t

/-- `fault_addr` of a data fault: the lowest effective address above 0xFFF, `max(I, 0x1000)`
(R231, R233). -/
def dataFaultAddr (s : State) : Word := BitVec.ofNat 16 (max s.idx.toNat 0x1000)

/-- The instruction's own fault, from the table of R231 (causes 3 to 6): its cause and
`fault_addr`, or none. -/
def ownFault (s : State) : Instr → Option (FaultCause × Word)
  | .call _ => if s.sp.val = 16 then some (.stackOverflow, 0) else none
  | .ret => if s.sp.val = 0 then some (.stackUnderflow, 0) else none
  | .drw _ _ n =>
    if 0 < n.toNat ∧ 0xFFF < s.idx.toNat + n.toNat - 1 then
      some (.dataOutOfBounds, dataFaultAddr s) else none
  | .ldB _ =>
    if 0xFFF < s.idx.toNat + 2 then some (.dataOutOfBounds, dataFaultAddr s) else none
  | .storeRegs x | .loadRegs x =>
    if 0xFFF < s.idx.toNat + x.val then some (.dataOutOfBounds, dataFaultAddr s) else none
  | .skp x | .sknp x =>
    if 0xF < s.v[x].toNat then
      some (.keyIndexOutOfRange, BitVec.ofNat 16 s.v[x].toNat) else none
  | .cls | .jp _ | .seImm _ _ | .sneImm _ _ | .seReg _ _ | .ldImm _ _ | .addImm _ _ | .ldReg _ _
  | .orReg _ _ | .andReg _ _ | .xorReg _ _ | .addReg _ _ | .sub _ _ | .shr _ _ | .subn _ _
  | .shl _ _ | .sneReg _ _ | .ldI _ | .jpV0 _ | .rnd _ _ | .ldVxDt _ | .ldVxK _ | .ldDtVx _
  | .ldStVx _ | .addI _ | .ldF _ => none

/-- The operands of an instruction are the fields of the word `op` (R82), by division. -/
def OperandsOf (op : Word) : Instr → Prop
  | .cls | .ret => True
  | .jp nnn | .call nnn | .ldI nnn | .jpV0 nnn => nnn.toNat = op.toNat % 0x1000
  | .seImm x kk | .sneImm x kk | .ldImm x kk | .addImm x kk | .rnd x kk =>
    x.val = op.toNat / 0x100 % 0x10 ∧ kk.toNat = op.toNat % 0x100
  | .seReg x y | .ldReg x y | .orReg x y | .andReg x y | .xorReg x y | .addReg x y | .sub x y
  | .shr x y | .subn x y | .shl x y | .sneReg x y =>
    x.val = op.toNat / 0x100 % 0x10 ∧ y.val = op.toNat / 0x10 % 0x10
  | .drw x y n =>
    x.val = op.toNat / 0x100 % 0x10 ∧ y.val = op.toNat / 0x10 % 0x10 ∧ n.toNat = op.toNat % 0x10
  | .skp x | .sknp x | .ldVxDt x | .ldVxK x | .ldDtVx x | .ldStVx x | .addI x | .ldF x | .ldB x
  | .storeRegs x | .loadRegs x => x.val = op.toNat / 0x100 % 0x10

/-- The registers an instruction may write: its destinations, and VF where it writes a flag (R21,
R22). -/
def mayWriteReg (r : Reg) : Instr → Bool
  | .ldImm x _ | .addImm x _ | .ldReg x _ | .orReg x _ | .andReg x _ | .xorReg x _ | .rnd x _
  | .ldVxDt x | .ldVxK x => r == x
  | .addReg x _ | .sub x _ | .shr x _ | .subn x _ | .shl x _ => r == x || r == 15
  | .drw _ _ _ => r == 15
  | .loadRegs x => decide (r ≤ x)
  | .cls | .ret | .jp _ | .call _ | .seImm _ _ | .sneImm _ _ | .seReg _ _ | .sneReg _ _ | .ldI _
  | .jpV0 _ | .skp _ | .sknp _ | .ldDtVx _ | .ldStVx _ | .addI _ | .ldF _ | .ldB _ | .storeRegs _ =>
    false

/-- The other parts an instruction may write: `I` (R25), the stack (R26, R27), the timers (R28,
R29), memory (R65), the display (R195). -/
def mayWrite : Instr → List Part
  | .cls | .drw _ _ _ => [.disp]
  | .ret | .call _ => [.stack]
  | .ldI _ | .addI _ | .ldF _ => [.idx]
  | .ldDtVx _ => [.dt]
  | .ldStVx _ => [.st]
  | .ldB _ | .storeRegs _ => [.mem]
  | .jp _ | .seImm _ _ | .sneImm _ _ | .seReg _ _ | .ldImm _ _ | .addImm _ _ | .ldReg _ _
  | .orReg _ _ | .andReg _ _ | .xorReg _ _ | .addReg _ _ | .sub _ _ | .shr _ _ | .subn _ _
  | .shl _ _ | .sneReg _ _ | .jpV0 _ | .rnd _ _ | .skp _ | .sknp _ | .ldVxDt _ | .ldVxK _
  | .loadRegs _ => []

/-- How many bytes an instruction stores, at `I` upwards (R65). -/
def storeCount : Instr → Nat
  | .ldB _ => 3
  | .storeRegs x => x.val + 1
  | .cls | .ret | .jp _ | .call _ | .seImm _ _ | .sneImm _ _ | .seReg _ _ | .ldImm _ _
  | .addImm _ _ | .ldReg _ _ | .orReg _ _ | .andReg _ _ | .xorReg _ _ | .addReg _ _ | .sub _ _
  | .shr _ _ | .subn _ _ | .shl _ _ | .sneReg _ _ | .ldI _ | .jpV0 _ | .rnd _ _ | .drw _ _ _
  | .skp _ | .sknp _ | .ldVxDt _ | .ldVxK _ | .ldDtVx _ | .ldStVx _ | .addI _ | .ldF _
  | .loadRegs _ => 0

/-- Pixel `(r, c)` lies under a 1 bit of the sprite `Dxyn` draws (R190, R191, R193): sprite row `i`
at row `(V[y] + i) mod 32`, its bit `7 - j` at column `(V[x] + j) mod 64`. -/
def SpriteCovers (s : State) (x y : Reg) (n : Nibble) (r : Fin 32) (c : Fin 64) : Prop :=
  ∃ i j, i < n.toNat ∧ j < 8 ∧ (s.mem.read (s.idx.toNat + i)).getLsbD (7 - j) = true ∧
    r.val = (s.v[y].toNat + i) % 32 ∧ c.val = (s.v[x].toNat + j) % 64

/-- The word at `pc`, where there is one (R63, R91). -/
def wordAtPc (s : State) : Nat :=
  (s.mem.read s.pc.toNat).toNat * 256 + (s.mem.read (s.pc.toNat + 1)).toNat

/-- A run has ended well (R49): not halted, and the word at `pc` is `0x1000 | pc`. -/
def EndedWell (s : State) : Prop :=
  s.halted = false ∧ s.pc.toNat ≤ 0xFFE ∧ wordAtPc s = 0x1000 + s.pc.toNat

/-- A run has ended badly (R49). -/
def EndedBadly (s : State) : Prop := s.halted = true

/-- What the fault registers say while they say something: the columns of R231 for each cause, in
the state the fault left (R232, R233, R234). -/
def FaultRecorded (s : State) : Prop :=
  match s.faultCause with
  | .none => False
  | .fetchOutOfBounds => 0xFFE < s.pc.toNat ∧ s.faultOpcode = 0 ∧ s.faultAddr = s.pc
  | .illegalInstruction =>
    s.faultOpcode.toNat = wordAtPc s ∧ legalWord s.faultOpcode = false ∧ s.faultAddr = 0
  | .stackOverflow => s.faultOpcode.toNat = wordAtPc s ∧ s.sp.val = 16 ∧ s.faultAddr = 0
  | .stackUnderflow => s.faultOpcode.toNat = wordAtPc s ∧ s.sp.val = 0 ∧ s.faultAddr = 0
  | .dataOutOfBounds =>
    s.faultOpcode.toNat = wordAtPc s ∧ s.faultAddr.toNat = max s.idx.toNat 0x1000
  | .keyIndexOutOfRange =>
    s.faultOpcode.toNat = wordAtPc s ∧ 0xF < s.faultAddr.toNat ∧ s.faultAddr.toNat ≤ 0xFF

/-- The invariant of the machine, from the rules that speak of every state a run can reach. -/
structure Inv (s : State) : Prop where
  /-- memory is in its canonical form, inside its 4096 bytes (R60) -/
  mem_wf : s.mem.wf
  /-- "The largest value an instruction can write is 0x10FE" (R24) -/
  pc_bound : s.pc.toNat ≤ 0x10FE
  /-- every outstanding return address is at most 0x1000 (R123, R125) -/
  returns : ∀ j : Fin 16, j.val < s.sp.val → s.stack[j].toNat ≤ 0x1000
  /-- not halted: the fault registers hold 0 (R34, R38) -/
  running : s.halted = false → s.faultCause = .none ∧ s.faultOpcode = 0 ∧ s.faultAddr = 0
  /-- halted: by a `Cycle`, with the record of R231, not waiting for a key (R232) -/
  halted : s.halted = true → FaultRecorded s ∧ s.cycled = true ∧ s.keyWait = false
  /-- waiting for a key: `pc` still points at the `Fx0A` (R35) -/
  waiting : s.keyWait = true → s.cycled = true ∧ s.pc.toNat ≤ 0xFFE ∧
    ∃ x : Reg, wordAtPc s = 0xF00A + 0x100 * x.val

end Sys2Proof.Machine
end

