-- ==== Sys2Proof/Certificates/Slice0/Obligations.lean ====
section
/-! DEFINITION. The statements for the provers. Each docstring names the rules of spec/ it comes
from; the terms (SameExcept, Advanced, Faulted, ...) are those of Safety.lean. -/

open Sys2Proof Sys2Proof.Machine

/-! ## Encoding -/

/-- Words written out from the patterns of R86, one or more of each family. -/
def Obligations.SampleWordsDecode : Prop :=
  decode 0x00E0 = .ok .cls ∧ decode 0x00EE = .ok .ret ∧ decode 0x1ABC = .ok (.jp 0xABC) ∧
  decode 0x3A42 = .ok (.seImm 10 0x42) ∧ decode 0x8127 = .ok (.subn 1 2) ∧
  decode 0xB300 = .ok (.jpV0 0x300) ∧ decode 0xC30F = .ok (.rnd 3 0x0F) ∧
  decode 0xD12F = .ok (.drw 1 2 15) ∧ decode 0xE5A1 = .ok (.sknp 5) ∧
  decode 0xF30A = .ok (.ldVxK 3) ∧ decode 0xF265 = .ok (.loadRegs 2)

/-- Decoding the two bytes of an instruction gives it back, whatever its operands and whatever
bytes follow (R80, R82, R86). -/
def Obligations.DecodeOfEncode : Prop :=
  ∀ (i : Instr) (rest : List Byte),
    decode (encode i) = .ok i ∧ decodeBytes (encodeBytes i ++ rest) = .ok (i, rest)

/-- A legal word is the encoding of the one instruction it decodes to (R86, R89). -/
def Obligations.EncodeOfDecode : Prop :=
  ∀ (op : Word) (i : Instr), decode op = .ok i → encode i = op

/-- Decoding is the opcode map (R93): the one row that selects the word, with the fields of R82;
and no row, exactly when the word is refused. -/
def Obligations.DecodeIsTheOneSelectedRow : Prop :=
  ∀ op : Word,
    (∀ i, decode op = .ok i →
      i.row ∈ opcodeMap ∧ op &&& i.row.mask = i.row.value ∧ OperandsOf op i ∧
      ∀ r ∈ opcodeMap, op &&& r.mask = r.value → r = i.row) ∧
    ((∀ r ∈ opcodeMap, op &&& r.mask ≠ r.value) ↔ ∃ e, decode op = .error e)

/-- The illegal words, category by category (R88), and what each raises. -/
def Obligations.IllegalWordsAreTheListed : Prop :=
  (∀ op : Word, (∃ e, decode op = .error e) ↔
    (op.toNat / 0x1000 = 0x0 ∧ op ≠ 0x00E0 ∧ op ≠ 0x00EE) ∨
    ((op.toNat / 0x1000 = 0x5 ∨ op.toNat / 0x1000 = 0x9) ∧ op.toNat % 0x10 ≠ 0) ∨
    (op.toNat / 0x1000 = 0x8 ∧ op.toNat % 0x10 ∈ [0x8, 0x9, 0xA, 0xB, 0xC, 0xD, 0xF]) ∨
    (op.toNat / 0x1000 = 0xE ∧ op.toNat % 0x100 ≠ 0x9E ∧ op.toNat % 0x100 ≠ 0xA1) ∨
    (op.toNat / 0x1000 = 0xF ∧
      op.toNat % 0x100 ∉ [0x07, 0x0A, 0x15, 0x18, 0x1E, 0x29, 0x33, 0x55, 0x65])) ∧
  ∀ (op : Word) (s : State), (∃ e, decode op = .error e) →
    ∃ t, runWord op s = .next t ∧ Faulted op .illegalInstruction 0 s t

/-! ## The engine, the events and the faults -/

/-- One step delivers the oldest event of the schedule, each as its own transition (R40). How the
schedule is held is the model's (log 2). -/
def Obligations.StepDeliversOldestEvent : Prop :=
  ∀ (s : State) (e : Event) (es : List Event), s.events = e :: es →
    step s = deliver e { s with events := es }

/-- A step runs the decoded instruction (R90, R93): with the bytes at `pc` those of `i`, not halted,
and a `Cycle` due, the step is `exec i`, from the state in which the `Cycle` is noted and its random
byte latched (the model's own fields, log 1, log 2, log 5). -/
def Obligations.StepRunsDecodedInstruction : Prop :=
  ∀ (s : State) (i : Instr), s.halted = false → s.pc.toNat ≤ 0xFFE →
    decodeBytes [s.mem.read s.pc.toNat, s.mem.read (s.pc.toNat + 1)] = .ok (i, []) →
    (s.events = [] →
      step s = exec i { s with rndIn := none, cycled := true, draws := s.draws + 1 }) ∧
    (∀ r es, s.events = .cycle r :: es →
      step s = exec i { s with events := es, rndIn := some r, cycled := true })

/-- The fetch (R91): two bytes, the one at the lower address high; above 0xFFE a fault that records
`pc`. `s.beginCycle r` differs from `s` in the model's own fields only (log 1, log 5). -/
def Obligations.FetchIsBigEndianOrFaults : Prop :=
  ∀ s : State,
    (s.pc.toNat ≤ 0xFFE → ∃ op, s.fetch = some op ∧ op.toNat = wordAtPc s) ∧
    (0xFFE < s.pc.toNat → s.halted = false → ∀ r, ∃ t, cycle r s = .next t ∧
      Faulted 0 .fetchOutOfBounds s.pc (s.beginCycle r) t)

/-- Every fault and only those (R231 to R233), checked in the order of R235: halted, fetch, decode,
the instruction's own condition; a `Tick` cannot fault. `s.beginCycle r` differs from `s`
in the model's own fields only (log 1, log 5). -/
def Obligations.CycleFaultsExactly : Prop :=
  (∀ (r : Option Byte) (s : State),
    (s.halted = true → cycle r s = .next s) ∧
    (s.halted = false → 0xFFE < s.pc.toNat → ∃ t, cycle r s = .next t ∧
      Faulted 0 .fetchOutOfBounds s.pc (s.beginCycle r) t) ∧
    (s.halted = false → s.pc.toNat ≤ 0xFFE → ∀ op : Word, op.toNat = wordAtPc s →
      ∃ t, cycle r s = .next t ∧
        match decode op with
        | .error _ => Faulted op .illegalInstruction 0 (s.beginCycle r) t
        | .ok i =>
          match ownFault s i with
          | some (c, a) => Faulted op c a (s.beginCycle r) t
          | none => t.halted = false ∧ t.faultCause = s.faultCause ∧
              t.faultOpcode = s.faultOpcode ∧ t.faultAddr = s.faultAddr)) ∧
  (∀ s t : State, deliver .tick s = .next t →
    t.halted = s.halted ∧ t.faultCause = s.faultCause) ∧
  FaultCause.none.code = 0 ∧ FaultCause.fetchOutOfBounds.code = 1 ∧
  FaultCause.illegalInstruction.code = 2 ∧ FaultCause.stackOverflow.code = 3 ∧
  FaultCause.stackUnderflow.code = 4 ∧ FaultCause.dataOutOfBounds.code = 5 ∧
  FaultCause.keyIndexOutOfRange.code = 6 ∧ ∀ c : FaultCause, c.code ≠ 7

/-- An instruction faults exactly where R231 says it does, with that cause, address and word, and
then changes nothing else (R232, R233); otherwise the fault registers stay. -/
def Obligations.InstructionsFaultExactly : Prop :=
  ∀ (i : Instr) (s : State), ∃ t, exec i s = .next t ∧
    match ownFault s i with
    | some (c, a) => Faulted (encode i) c a s t
    | none => t.halted = s.halted ∧ t.faultCause = s.faultCause ∧
        t.faultOpcode = s.faultOpcode ∧ t.faultAddr = s.faultAddr

/-- The halted state (R234): only `Reset` ends it. A `LoadRom` is rejected once a `Cycle` has been
performed since the last `Reset` (R45); that `cycled` tells this is the model's choice (log 5). -/
def Obligations.HaltedUntilReset : Prop :=
  ∀ s : State, s.halted = true →
    (∀ r, deliver (.cycle r) s = .next s) ∧
    deliver .tick s = .next s ∧
    (∀ k, ∃ t, deliver (.setKeys k) s = .next t ∧ (∀ i : Fin 16, t.keys[i] = k.getLsbD i.val) ∧
      t.pc = s.pc ∧ t.keyWait = s.keyWait ∧ SameExcept [.keys] s t) ∧
    (s.cycled = true → ∀ image, deliver (.loadRom image) s = .next s) ∧
    (∀ e t, e ≠ .reset → deliver e s = .next t → t.halted = true) ∧
    ∃ t, deliver .reset s = .next t ∧ t.halted = false

/-- `Tick` (R239): each timer one less, never below 0, and nothing else; nothing at all while
halted. -/
def Obligations.TickDecrementsTimers : Prop :=
  ∀ s : State, ∃ t, deliver .tick s = .next t ∧
    (s.halted = true → t = s) ∧
    (s.halted = false → t.dt.toNat = s.dt.toNat - 1 ∧ t.st.toNat = s.st.toNat - 1 ∧
      t.pc = s.pc ∧ t.keyWait = s.keyWait ∧ SameExcept [.dt, .st] s t)

/-- `SetKeys` (R44). -/
def Obligations.SetKeysWritesKeypadOnly : Prop :=
  ∀ (s : State) (k : Word), ∃ t, deliver (.setKeys k) s = .next t ∧
    (∀ i : Fin 16, t.keys[i] = k.getLsbD i.val) ∧
    t.pc = s.pc ∧ t.keyWait = s.keyWait ∧ SameExcept [.keys] s t

/-- `LoadRom` (R45): admitted with at most 0xE00 bytes and no `Cycle` since the last `Reset`, it
writes the image at 0x200 and nothing else; otherwise it changes nothing. R45 names no bit for its
second condition: `cycled`, and that a `Cycle` sets it and `Reset` clears it (the last two clauses),
is the model's choice (log 5). -/
def Obligations.LoadRomWritesImageOrNothing : Prop :=
  (∀ (s : State) (image : List Byte), ∃ t, deliver (.loadRom image) s = .next t ∧
    (image.length ≤ 0xE00 ∧ s.cycled = false →
      (∀ k, k < image.length → t.mem.read (0x200 + k) = image.getD k 0) ∧
      (∀ a, ¬ (0x200 ≤ a ∧ a < 0x200 + image.length) → t.mem.read a = s.mem.read a) ∧
      t.pc = s.pc ∧ t.keyWait = s.keyWait ∧ SameExcept [.mem] s t) ∧
    (¬ (image.length ≤ 0xE00 ∧ s.cycled = false) → t = s)) ∧
  (∀ (s t : State) (r : Option Byte), s.halted = false → cycle r s = .next t → t.cycled = true) ∧
  ∀ s t : State, deliver .reset s = .next t → t.cycled = false

/-- `Reset` (R41), in any state: the reset state, but for the model's own fields. -/
def Obligations.ResetEventGivesResetState : Prop :=
  ∀ s : State, ∃ t, deliver .reset s = .next t ∧
    { t with events := [], rndIn := none, draws := 0 } = State.reset

/-- The reset values of R38, with the font bytes of R31. -/
def Obligations.ResetValues : Prop :=
  (∀ r : Reg, State.reset.v[r] = 0) ∧ State.reset.idx = 0 ∧ State.reset.pc = 0x200 ∧
  State.reset.sp.val = 0 ∧ (∀ j : Fin 16, State.reset.stack[j] = 0) ∧
  State.reset.dt = 0 ∧ State.reset.st = 0 ∧
  (∀ (r : Fin 32) (c : Fin 64), State.reset.disp[r][c] = false) ∧
  (∀ k : Fin 16, State.reset.keys[k] = false) ∧
  State.reset.halted = false ∧ State.reset.faultCause = .none ∧ State.reset.faultOpcode = 0 ∧
  State.reset.faultAddr = 0 ∧ State.reset.keyWait = false ∧
  (∀ a, a < 0x050 ∨ 0x09F < a → State.reset.mem.read a = 0) ∧
  (List.range 80).map (fun k => State.reset.mem.read (0x050 + k)) =
    ([0xF0, 0x90, 0x90, 0x90, 0xF0] ++ [0x20, 0x60, 0x20, 0x20, 0x70] ++
     [0xF0, 0x10, 0xF0, 0x80, 0xF0] ++ [0xF0, 0x10, 0xF0, 0x10, 0xF0] ++
     [0x90, 0x90, 0xF0, 0x10, 0x10] ++ [0xF0, 0x80, 0xF0, 0x10, 0xF0] ++
     [0xF0, 0x80, 0xF0, 0x90, 0xF0] ++ [0xF0, 0x10, 0x20, 0x40, 0x40] ++
     [0xF0, 0x90, 0xF0, 0x90, 0xF0] ++ [0xF0, 0x90, 0xF0, 0x10, 0xF0] ++
     [0xF0, 0x90, 0xF0, 0x90, 0x90] ++ [0xE0, 0x90, 0xE0, 0x90, 0xE0] ++
     [0xF0, 0x80, 0x80, 0x80, 0xF0] ++ [0xE0, 0x90, 0x90, 0x90, 0xE0] ++
     [0xF0, 0x80, 0xF0, 0x80, 0xF0] ++ [0xF0, 0x80, 0xF0, 0x80, 0x80] : List Byte)

/-- No state stops the machine: every step answers a next state (R40, R90, R232). -/
def Obligations.StepAlwaysAnswers : Prop :=
  ∀ s : State, ∃ t, step s = .next t

/-- The invariant holds after reset. -/
def Obligations.ResetMeetsInvariant : Prop := Inv State.reset

/-- Every step, of every event, keeps the invariant: the memory's form (R60), the bound of `pc`
(R24), the return addresses (R123), the record of a fault (R231, R232, R234), the key wait
(R35). The bit `cycled` it speaks of is the model's choice (log 5). -/
def Obligations.StepKeepsInvariant : Prop :=
  ∀ s t : State, Inv s → step s = .next t → Inv t

/-- `Tick` and `Cycle` due together (R242): with `Fx15` the two orders give the two values; with an
instruction that neither reads nor writes a timer, and that does not fault, they give one state. -/
def Obligations.TickAndCycleOrders : Prop :=
  (∀ (x : Reg) (s : State), s.halted = false →
    (∃ t u, exec (.ldDtVx x) s = .next t ∧ deliver .tick t = .next u ∧
      u.dt.toNat = s.v[x].toNat - 1) ∧
    ∃ t u, deliver .tick s = .next t ∧ exec (.ldDtVx x) t = .next u ∧ u.dt = s.v[x]) ∧
  (∀ (x : Reg) (s : State), s.halted = false →
    ∃ t u, deliver .tick s = .next t ∧ exec (.ldVxDt x) t = .next u ∧
      u.v[x].toNat = s.dt.toNat - 1) ∧
  ∀ (i : Instr) (s t : State), s.halted = false →
    (∀ x, i ≠ .ldVxDt x ∧ i ≠ .ldDtVx x ∧ i ≠ .ldStVx x) →
    exec i s = .next t → t.halted = false →
    exec i s.onTick = .next t.onTick

/-- A run that has ended well stays so (R49, R124): a further `Cycle` at the self-jump leaves
everything but the model's own fields. -/
def Obligations.SelfJumpStaysEnded : Prop :=
  ∀ (s : State) (r : Option Byte), EndedWell s → ∃ t, cycle r s = .next t ∧ EndedWell t ∧
    t.pc = s.pc ∧ t.keyWait = false ∧ SameExcept [] (s.beginCycle r) t

/-- `key_wait` (R97): 1 exactly when the instruction was an `Fx0A` that found no key; 0 on a
fault. -/
def Obligations.KeyWaitOnlyWhenWaiting : Prop :=
  (∀ (i : Instr) (s t : State), exec i s = .next t →
    (t.keyWait = true ↔ (∃ x, i = .ldVxK x) ∧ ∀ k : Fin 16, s.keys[k] = false)) ∧
  ∀ (r : Option Byte) (s t : State), s.halted = false → cycle r s = .next t →
    t.halted = true → t.keyWait = false

/-! ## Whole-machine rules over every instruction -/

/-- The frame of every instruction: only its destination registers and VF where it writes a flag
(R21, R22), only the other parts its rule names (R25 to R29, R195), only the bytes it stores, at `I`
upwards (R65, R176), and, where it faults, the fault registers. The keypad and the model's own
fields never change. -/
def Obligations.InstructionsWriteOnlyTheirDestinations : Prop :=
  ∀ (i : Instr) (s t : State), exec i s = .next t →
    (∀ r : Reg, mayWriteReg r i = false → t.v[r] = s.v[r]) ∧
    SameExcept (.regs :: .fault :: mayWrite i) s t ∧
    ∀ a, ¬ (s.idx.toNat ≤ a ∧ a < s.idx.toNat + storeCount i) → t.mem.read a = s.mem.read a

/-- Only `2nnn` (+1) and `00EE` (-1) change `sp`, and only `2nnn` writes an entry, the one at the
old depth (R26, R27). -/
def Obligations.OnlyCallAndReturnMoveTheStack : Prop :=
  ∀ (i : Instr) (s t : State), exec i s = .next t →
    (t.sp ≠ s.sp → ((∃ nnn, i = .call nnn) ∧ t.sp.val = s.sp.val + 1) ∨
      (i = .ret ∧ t.sp.val + 1 = s.sp.val)) ∧
    ∀ j : Fin 16, t.stack[j] ≠ s.stack[j] → (∃ nnn, i = .call nnn) ∧ j.val = s.sp.val

/-- No instruction but `Dxyn` reads the display (R195): with other pixels it does the same. -/
def Obligations.OnlyDrawReadsDisplay : Prop :=
  ∀ (i : Instr) (s t : State) (d : Display), (∀ x y n, i ≠ .drw x y n) → exec i s = .next t →
    exec i { s with disp := d } = .next { t with disp := if i = .cls then t.disp else d }

/-- Only `Cxkk` uses `rnd` (R42): with another byte every other instruction does the same. -/
def Obligations.OnlyRndReadsRandomByte : Prop :=
  ∀ (i : Instr) (s t : State) (r : Option Byte) (k : Nat), (∀ x kk, i ≠ .rnd x kk) →
    exec i s = .next t →
    exec i { s with rndIn := r, draws := k } = .next { t with rndIn := r, draws := k }

/-- Only `Ex9E`, `ExA1` and `Fx0A` read the keypad (R32), and no instruction writes it. -/
def Obligations.OnlyKeyInstructionsReadKeypad : Prop :=
  ∀ (i : Instr) (s t : State) (k : Vector Bool 16), exec i s = .next t →
    t.keys = s.keys ∧
    ((∀ x, i ≠ .skp x ∧ i ≠ .sknp x ∧ i ≠ .ldVxK x) →
      exec i { s with keys := k } = .next { t with keys := k })

/-- No instruction reads the sound timer (R29). -/
def Obligations.SoundTimerIsNotRead : Prop :=
  ∀ (i : Instr) (s t : State) (b : Byte), exec i s = .next t →
    exec i { s with st := b } =
      .next { t with st := if (∃ x, i = .ldStVx x) then t.st else b }

/-- No instruction reads a stale stack entry, one at or above `sp` (R26): with other stale entries
it does the same, the stale entries apart. -/
def Obligations.StaleStackEntriesAreNotRead : Prop :=
  ∀ (i : Instr) (s t : State) (k : Vector Word 16),
    (∀ j : Fin 16, j.val < s.sp.val → k[j] = s.stack[j]) → exec i s = .next t →
    ∃ u, exec i { s with stack := k } = .next u ∧ { u with stack := t.stack } = t ∧
      ∀ j : Fin 16, j.val < t.sp.val → u.stack[j] = t.stack[j]

/-- The program cannot read the status registers (R34, R35, R233): with other values in the fault
record and in `key_wait` every instruction does the same, and, unless it faults, leaves the record
as it is. -/
def Obligations.StatusRegistersAreNotRead : Prop :=
  ∀ (i : Instr) (s t : State) (c : FaultCause) (op a : Word) (w : Bool), exec i s = .next t →
    (ownFault s i = none →
      exec i { s with faultCause := c, faultOpcode := op, faultAddr := a, keyWait := w } =
        .next { t with faultCause := c, faultOpcode := op, faultAddr := a }) ∧
    (ownFault s i ≠ none →
      exec i { s with faultCause := c, faultOpcode := op, faultAddr := a, keyWait := w } = .next t)

/-! ## Control transfer and the call stack -/

/-- `RET` (R123, R122): to the newest entry, one call fewer; `STACK_UNDERFLOW` with none. -/
def Obligations.ReturnPops : Prop :=
  ∀ s : State, ∃ t, exec .ret s = .next t ∧
    (s.sp.val = 0 → Faulted 0x00EE .stackUnderflow 0 s t) ∧
    (∀ j : Fin 16, s.sp.val = j.val + 1 → WentTo s.stack[j] t ∧ t.sp.val = j.val ∧
      t.stack = s.stack ∧ SameExcept [.stack] s t)

/-- `JP nnn` (R124). -/
def Obligations.JumpGoesToTarget : Prop :=
  ∀ (nnn : Addr) (s : State), ∃ t, exec (.jp nnn) s = .next t ∧
    t.pc.toNat = nnn.toNat ∧ t.keyWait = false ∧ SameExcept [] s t

/-- `CALL nnn` (R125, R121): the address after the call in the slot at the old depth, one call more;
`STACK_OVERFLOW` with 16. -/
def Obligations.CallPushes : Prop :=
  ∀ (nnn : Addr) (s : State), ∃ t, exec (.call nnn) s = .next t ∧
    (s.sp.val = 16 → Faulted (encode (.call nnn)) .stackOverflow 0 s t) ∧
    (∀ j : Fin 16, s.sp.val = j.val →
      t.pc.toNat = nnn.toNat ∧ t.keyWait = false ∧ t.sp.val = j.val + 1 ∧
      t.stack[j] = s.pc + 2 ∧ (∀ k : Fin 16, k ≠ j → t.stack[k] = s.stack[k]) ∧
      SameExcept [.stack] s t)

/-- `SE Vx, kk` and `SNE Vx, kk` (R126, R127). -/
def Obligations.SkipsOnImmediate : Prop :=
  ∀ (x : Reg) (kk : Byte) (s : State),
    (∃ t, exec (.seImm x kk) s = .next t ∧
      t.pc = (if s.v[x] = kk then s.pc + 4 else s.pc + 2) ∧ t.keyWait = false ∧
      SameExcept [] s t) ∧
    ∃ t, exec (.sneImm x kk) s = .next t ∧
      t.pc = (if s.v[x] = kk then s.pc + 2 else s.pc + 4) ∧ t.keyWait = false ∧
      SameExcept [] s t

/-- `SE Vx, Vy` and `SNE Vx, Vy` (R128, R129). -/
def Obligations.SkipsOnRegister : Prop :=
  ∀ (x y : Reg) (s : State),
    (∃ t, exec (.seReg x y) s = .next t ∧
      t.pc = (if s.v[x] = s.v[y] then s.pc + 4 else s.pc + 2) ∧ t.keyWait = false ∧
      SameExcept [] s t) ∧
    ∃ t, exec (.sneReg x y) s = .next t ∧
      t.pc = (if s.v[x] = s.v[y] then s.pc + 2 else s.pc + 4) ∧ t.keyWait = false ∧
      SameExcept [] s t

/-- `JP V0, nnn` (R130): the sum, not masked; at most 0x10FE. -/
def Obligations.ComputedJumpIsNotMasked : Prop :=
  ∀ (nnn : Addr) (s : State), ∃ t, exec (.jpV0 nnn) s = .next t ∧
    t.pc.toNat = nnn.toNat + s.v[(0 : Reg)].toNat ∧ t.pc.toNat ≤ 0x10FE ∧ t.keyWait = false ∧
    SameExcept [] s t

/-- A call and, from any state with the stack it left, a return (R121 to R125): back to the address
after the call, at the depth before it, the entries below untouched. -/
def Obligations.ReturnUndoesCall : Prop :=
  ∀ (nnn : Addr) (s : State), s.sp.val < 16 → ∃ t, exec (.call nnn) s = .next t ∧
    (∀ j : Fin 16, j.val < s.sp.val → t.stack[j] = s.stack[j]) ∧
    ∀ u : State, u.sp = t.sp → u.stack = t.stack →
      ∃ w, exec .ret u = .next w ∧ w.pc = s.pc + 2 ∧ w.sp = s.sp

/-! ## Register loads and the ALU -/

/-- `LD Vx, kk` and `LD Vx, Vy` (R140, R142). -/
def Obligations.LoadsWriteTheirRegister : Prop :=
  ∀ (x y : Reg) (kk : Byte) (s : State),
    (∃ t, exec (.ldImm x kk) s = .next t ∧ OnlyRegister x kk.toNat s t ∧ Advanced s t ∧
      SameExcept [.regs] s t) ∧
    ∃ t, exec (.ldReg x y) s = .next t ∧ OnlyRegister x s.v[y].toNat s t ∧ Advanced s t ∧
      SameExcept [.regs] s t

/-- `ADD Vx, kk` (R141): modulo 256, no flag. -/
def Obligations.AddImmediateSetsNoFlag : Prop :=
  ∀ (x : Reg) (kk : Byte) (s : State), ∃ t, exec (.addImm x kk) s = .next t ∧
    OnlyRegister x ((s.v[x].toNat + kk.toNat) % 256) s t ∧ Advanced s t ∧ SameExcept [.regs] s t

/-- `OR`, `AND`, `XOR` (R143, R144, R145): VF unchanged unless it is the destination. -/
def Obligations.LogicSetsNoFlag : Prop :=
  ∀ (x y : Reg) (s : State),
    (∃ t, exec (.orReg x y) s = .next t ∧
      OnlyRegister x (s.v[x].toNat ||| s.v[y].toNat) s t ∧ Advanced s t ∧
      SameExcept [.regs] s t) ∧
    (∃ t, exec (.andReg x y) s = .next t ∧
      OnlyRegister x (s.v[x].toNat &&& s.v[y].toNat) s t ∧ Advanced s t ∧
      SameExcept [.regs] s t) ∧
    ∃ t, exec (.xorReg x y) s = .next t ∧
      OnlyRegister x (s.v[x].toNat ^^^ s.v[y].toNat) s t ∧ Advanced s t ∧ SameExcept [.regs] s t

/-- `ADD Vx, Vy` (R146): VF = carry, the result last. -/
def Obligations.AddSetsCarry : Prop :=
  ∀ (x y : Reg) (s : State), ∃ t, exec (.addReg x y) s = .next t ∧
    ResultAndFlag x ((s.v[x].toNat + s.v[y].toNat) % 256)
      (decide (255 < s.v[x].toNat + s.v[y].toNat)) s t ∧
    Advanced s t ∧ SameExcept [.regs] s t

/-- `SUB` and `SUBN` (R147, R149): VF = not-borrow, strictly greater; the result last. -/
def Obligations.SubtractsSetNotBorrow : Prop :=
  ∀ (x y : Reg) (s : State),
    (∃ t, exec (.sub x y) s = .next t ∧
      ResultAndFlag x ((s.v[x].toNat + 256 - s.v[y].toNat) % 256)
        (decide (s.v[y].toNat < s.v[x].toNat)) s t ∧
      Advanced s t ∧ SameExcept [.regs] s t) ∧
    ∃ t, exec (.subn x y) s = .next t ∧
      ResultAndFlag x ((s.v[y].toNat + 256 - s.v[x].toNat) % 256)
        (decide (s.v[x].toNat < s.v[y].toNat)) s t ∧
      Advanced s t ∧ SameExcept [.regs] s t

/-- `SHR` and `SHL` (R148, R150): of `V[x]` whatever `y` is, VF the bit shifted out. -/
def Obligations.ShiftsSetShiftedOutBit : Prop :=
  ∀ (x y : Reg) (s : State),
    (∃ t, exec (.shr x y) s = .next t ∧
      ResultAndFlag x (s.v[x].toNat / 2) (decide (s.v[x].toNat % 2 = 1)) s t ∧
      Advanced s t ∧ SameExcept [.regs] s t) ∧
    ∃ t, exec (.shl x y) s = .next t ∧
      ResultAndFlag x (s.v[x].toNat * 2 % 256) (decide (128 ≤ s.v[x].toNat)) s t ∧
      Advanced s t ∧ SameExcept [.regs] s t

/-- The final VF of the five flag instructions with `x = 0xF` (R154): the result. -/
def Obligations.ResultReplacesFlagInVF : Prop :=
  ∀ (y : Reg) (s : State),
    (∃ t, exec (.addReg 15 y) s = .next t ∧
      t.v[(15 : Reg)].toNat = (s.v[(15 : Reg)].toNat + s.v[y].toNat) % 256) ∧
    (∃ t, exec (.sub 15 y) s = .next t ∧
      t.v[(15 : Reg)].toNat = (s.v[(15 : Reg)].toNat + 256 - s.v[y].toNat) % 256) ∧
    (∃ t, exec (.shr 15 y) s = .next t ∧
      t.v[(15 : Reg)].toNat = s.v[(15 : Reg)].toNat / 2) ∧
    (∃ t, exec (.subn 15 y) s = .next t ∧
      t.v[(15 : Reg)].toNat = (s.v[y].toNat + 256 - s.v[(15 : Reg)].toNat) % 256) ∧
    ∃ t, exec (.shl 15 y) s = .next t ∧
      t.v[(15 : Reg)].toNat = s.v[(15 : Reg)].toNat * 2 % 256

/-- `RND Vx, kk` (R151): the byte of the `Cycle` masked; where the schedule names none, that byte is
the free value (log 1), and the statement holds for every one. -/
def Obligations.RandomIsMasked : Prop :=
  ∀ (x : Reg) (kk : Byte) (s : State), ∃ r t, exec (.rnd x kk) s = .next t ∧
    (∀ b, s.rndIn = some b → r = b) ∧ (s.rndIn = none → r = Config.rnd s.draws) ∧
    OnlyRegister x (r.toNat &&& kk.toNat) s t ∧ Advanced s t ∧ SameExcept [.regs] s t

/-! ## The index register and memory -/

/-- `LD I, nnn`, `ADD I, Vx` and `LD F, Vx` (R170, R171, R172): no flag, no mask. -/
def Obligations.IndexWrites : Prop :=
  ∀ (nnn : Addr) (x : Reg) (s : State),
    (∃ t, exec (.ldI nnn) s = .next t ∧ t.idx.toNat = nnn.toNat ∧ Advanced s t ∧
      SameExcept [.idx] s t) ∧
    (∃ t, exec (.addI x) s = .next t ∧ t.idx.toNat = (s.idx.toNat + s.v[x].toNat) % 65536 ∧
      Advanced s t ∧ SameExcept [.idx] s t) ∧
    ∃ t, exec (.ldF x) s = .next t ∧ t.idx.toNat = 0x050 + 5 * s.v[x].toNat ∧
      Advanced s t ∧ SameExcept [.idx] s t

/-- `LD B, Vx` (R173): three digits, the other bytes as before; out of bounds, a fault. -/
def Obligations.BcdStoresDigits : Prop :=
  ∀ (x : Reg) (s : State), ∃ t, exec (.ldB x) s = .next t ∧
    (s.idx.toNat + 2 ≤ 0xFFF →
      (t.mem.read s.idx.toNat).toNat = s.v[x].toNat / 100 ∧
      (t.mem.read (s.idx.toNat + 1)).toNat = s.v[x].toNat / 10 % 10 ∧
      (t.mem.read (s.idx.toNat + 2)).toNat = s.v[x].toNat % 10 ∧
      (∀ a, ¬ (s.idx.toNat ≤ a ∧ a ≤ s.idx.toNat + 2) → t.mem.read a = s.mem.read a) ∧
      Advanced s t ∧ SameExcept [.mem] s t) ∧
    (0xFFF < s.idx.toNat + 2 →
      Faulted (encode (.ldB x)) .dataOutOfBounds (dataFaultAddr s) s t)

/-- `LD [I], Vx` (R174): `V[0]` to `V[x]` at `I` upwards, the other bytes as before; out of bounds,
a fault. -/
def Obligations.RegisterStore : Prop :=
  ∀ (x : Reg) (s : State), ∃ t, exec (.storeRegs x) s = .next t ∧
    (s.idx.toNat + x.val ≤ 0xFFF →
      (∀ r : Reg, r ≤ x → t.mem.read (s.idx.toNat + r.val) = s.v[r]) ∧
      (∀ a, ¬ (s.idx.toNat ≤ a ∧ a ≤ s.idx.toNat + x.val) → t.mem.read a = s.mem.read a) ∧
      Advanced s t ∧ SameExcept [.mem] s t) ∧
    (0xFFF < s.idx.toNat + x.val →
      Faulted (encode (.storeRegs x)) .dataOutOfBounds (dataFaultAddr s) s t)

/-- `LD Vx, [I]` (R175): `V[0]` to `V[x]` from `I` upwards, the other registers as before; out of
bounds, a fault. -/
def Obligations.RegisterLoad : Prop :=
  ∀ (x : Reg) (s : State), ∃ t, exec (.loadRegs x) s = .next t ∧
    (s.idx.toNat + x.val ≤ 0xFFF →
      (∀ r : Reg, r ≤ x → t.v[r] = s.mem.read (s.idx.toNat + r.val)) ∧
      (∀ r : Reg, x < r → t.v[r] = s.v[r]) ∧ Advanced s t ∧ SameExcept [.regs] s t) ∧
    (0xFFF < s.idx.toNat + x.val →
      Faulted (encode (.loadRegs x)) .dataOutOfBounds (dataFaultAddr s) s t)

/-- `Fx55` then `Fx65` with the same `x` and `I` restores `V[0]` to `V[x]` (R174, R175), from any
state with the memory and the `I` the first left. -/
def Obligations.StoreThenLoadRestores : Prop :=
  ∀ (x : Reg) (s : State), s.idx.toNat + x.val ≤ 0xFFF → ∃ t, exec (.storeRegs x) s = .next t ∧
    ∀ u : State, u.mem = t.mem → u.idx = t.idx →
      ∃ w, exec (.loadRegs x) u = .next w ∧ ∀ r : Reg, r ≤ x → w.v[r] = s.v[r]

/-- A byte `Fx55` stores is fetched as written (R73): from any state with the memory it left and
`pc` on two stored bytes, the fetch gives the two registers' bytes. -/
def Obligations.StoredBytesAreFetched : Prop :=
  ∀ (x r q : Reg) (s : State), s.idx.toNat + x.val ≤ 0xFFF → q.val = r.val + 1 → q ≤ x →
    ∃ t, exec (.storeRegs x) s = .next t ∧
      ∀ u : State, u.mem = t.mem → u.pc.toNat = s.idx.toNat + r.val →
        ∃ op, u.fetch = some op ∧ op.toNat = s.v[r].toNat * 256 + s.v[q].toNat

/-! ## The display -/

/-- `CLS` (R192). -/
def Obligations.ClearBlanksDisplay : Prop :=
  ∀ s : State, ∃ t, exec .cls s = .next t ∧
    (∀ (r : Fin 32) (c : Fin 64), t.disp[r][c] = false) ∧ Advanced s t ∧ SameExcept [.disp] s t

/-- `DRW Vx, Vy, n` (R190, R191, R193): the pixels under a 1 bit of the sprite flip, the others
stay, VF says whether one went from 1 to 0; out of bounds, a fault. -/
def Obligations.DrawXorsSprite : Prop :=
  ∀ (x y : Reg) (n : Nibble) (s : State), ∃ t, exec (.drw x y n) s = .next t ∧
    (n.toNat = 0 ∨ s.idx.toNat + n.toNat - 1 ≤ 0xFFF →
      (∀ (r : Fin 32) (c : Fin 64),
        (SpriteCovers s x y n r c → t.disp[r][c] = !s.disp[r][c]) ∧
        (¬ SpriteCovers s x y n r c → t.disp[r][c] = s.disp[r][c])) ∧
      (t.v[(15 : Reg)] = 0 ∨ t.v[(15 : Reg)] = 1) ∧
      (t.v[(15 : Reg)] = 1 ↔
        ∃ (r : Fin 32) (c : Fin 64), s.disp[r][c] = true ∧ t.disp[r][c] = false) ∧
      (∀ r : Reg, r ≠ 15 → t.v[r] = s.v[r]) ∧ Advanced s t ∧ SameExcept [.regs, .disp] s t) ∧
    (n.toNat ≠ 0 → 0xFFF < s.idx.toNat + n.toNat - 1 →
      Faulted (encode (.drw x y n)) .dataOutOfBounds (dataFaultAddr s) s t)

/-- Drawing twice restores the display (R194): from any state with the display the first draw left
and the same operands and sprite bytes, the second gives back every pixel, and sets VF exactly when
the first turned a pixel on. -/
def Obligations.DrawTwiceRestores : Prop :=
  ∀ (x y : Reg) (n : Nibble) (s t u w : State),
    s.halted = false → exec (.drw x y n) s = .next t → t.halted = false →
    u.disp = t.disp → u.v[x] = s.v[x] → u.v[y] = s.v[y] → u.idx = s.idx →
    (∀ i, i < n.toNat → u.mem.read (s.idx.toNat + i) = s.mem.read (s.idx.toNat + i)) →
    exec (.drw x y n) u = .next w →
    w.disp = s.disp ∧
    (w.v[(15 : Reg)] = 1 ↔
      ∃ (r : Fin 32) (c : Fin 64), s.disp[r][c] = false ∧ t.disp[r][c] = true)

/-! ## Keypad and timers -/

/-- `SKP` and `SKNP` (R210, R211), and a key number above 0xF (R216). -/
def Obligations.SkipsOnKey : Prop :=
  ∀ (x : Reg) (s : State),
    (∃ t, exec (.skp x) s = .next t ∧
      (∀ k : Fin 16, s.v[x].toNat = k.val →
        t.pc = (if s.keys[k] = true then s.pc + 4 else s.pc + 2) ∧ t.keyWait = false ∧
        SameExcept [] s t) ∧
      (0xF < s.v[x].toNat → Faulted (encode (.skp x)) .keyIndexOutOfRange
        (BitVec.ofNat 16 s.v[x].toNat) s t)) ∧
    ∃ t, exec (.sknp x) s = .next t ∧
      (∀ k : Fin 16, s.v[x].toNat = k.val →
        t.pc = (if s.keys[k] = false then s.pc + 4 else s.pc + 2) ∧ t.keyWait = false ∧
        SameExcept [] s t) ∧
      (0xF < s.v[x].toNat → Faulted (encode (.sknp x)) .keyIndexOutOfRange
        (BitVec.ofNat 16 s.v[x].toNat) s t)

/-- `LD Vx, DT` (R212). -/
def Obligations.DelayTimerIsRead : Prop :=
  ∀ (x : Reg) (s : State), ∃ t, exec (.ldVxDt x) s = .next t ∧ OnlyRegister x s.dt.toNat s t ∧
    Advanced s t ∧ SameExcept [.regs] s t

/-- `LD Vx, K` (R213): with no key pressed it stays and waits; else the least key pressed. -/
def Obligations.KeyWaitTakesLeastKey : Prop :=
  ∀ (x : Reg) (s : State), ∃ t, exec (.ldVxK x) s = .next t ∧
    ((∀ k : Fin 16, s.keys[k] = false) →
      t.pc = s.pc ∧ t.keyWait = true ∧ SameExcept [] s t) ∧
    (∀ k : Fin 16, s.keys[k] = true → (∀ j : Fin 16, j < k → s.keys[j] = false) →
      OnlyRegister x k.val s t ∧ Advanced s t ∧ SameExcept [.regs] s t)

/-- `LD DT, Vx` and `LD ST, Vx` (R214, R215), and `sound_on` after the second (R46). -/
def Obligations.TimerWrites : Prop :=
  ∀ (x : Reg) (s : State),
    (∃ t, exec (.ldDtVx x) s = .next t ∧ t.dt = s.v[x] ∧ Advanced s t ∧ SameExcept [.dt] s t) ∧
    ∃ t, exec (.ldStVx x) s = .next t ∧ t.st = s.v[x] ∧ t.soundOn = decide (s.v[x] ≠ 0) ∧
      Advanced s t ∧ SameExcept [.st] s t
end

