-- ==== Sys2Proof/Laws/Decode.lean ====
section
/-! SUPPORT. The fields of a word put together from its fields (R81, R82), and a word put together
from its own fields: what decoding, encoding and their round trips rest on. -/

namespace Sys2Proof

theorem getLsbD_wordNNN (c : Nibble) (a : Addr) (i : Nat) :
    (wordNNN c a).getLsbD i = if i < 12 then a.getLsbD i else c.getLsbD (i - 12) :=
  BitVec.getLsbD_append (x := c) (y := a)

theorem getLsbD_lowXKK (x : Reg) (kk : Byte) (i : Nat) :
    (lowXKK x kk).getLsbD i = if i < 8 then kk.getLsbD i else (regBits x).getLsbD (i - 8) :=
  BitVec.getLsbD_append (x := regBits x) (y := kk)

theorem getLsbD_lowYN (y : Reg) (n : Nibble) (i : Nat) :
    (lowYN y n).getLsbD i = if i < 4 then n.getLsbD i else (regBits y).getLsbD (i - 4) :=
  BitVec.getLsbD_append (x := regBits y) (y := n)

@[simp] theorem toFin_regBits (x : Reg) : (regBits x).toFin = x := rfl

@[simp] theorem regBits_toFin (b : Nibble) : regBits b.toFin = b := rfl

@[simp] theorem category_wordNNN (c : Nibble) (a : Addr) : category (wordNNN c a) = c := by
  refine BitVec.eq_of_getLsbD_eq fun i hi => ?_
  simp only [category, BitVec.getLsbD_extractLsb', getLsbD_wordNNN]
  simp [hi]

@[simp] theorem fieldNNN_wordNNN (c : Nibble) (a : Addr) : fieldNNN (wordNNN c a) = a := by
  refine BitVec.eq_of_getLsbD_eq fun i hi => ?_
  simp only [fieldNNN, BitVec.getLsbD_extractLsb', getLsbD_wordNNN]
  simp [hi]

@[simp] theorem fieldX_wordXKK (c : Nibble) (x : Reg) (kk : Byte) : fieldX (wordXKK c x kk) = x := by
  have h : (wordXKK c x kk).extractLsb' 8 4 = regBits x := by
    refine BitVec.eq_of_getLsbD_eq fun i hi => ?_
    simp only [wordXKK, BitVec.getLsbD_extractLsb', getLsbD_wordNNN, getLsbD_lowXKK]
    have h1 : 8 + i < 12 := by omega
    have h2 : ¬ 8 + i < 8 := by omega
    simp [hi, h1, h2]
  rw [fieldX, h, toFin_regBits]

@[simp] theorem fieldKK_wordXKK (c : Nibble) (x : Reg) (kk : Byte) :
    fieldKK (wordXKK c x kk) = kk := by
  refine BitVec.eq_of_getLsbD_eq fun i hi => ?_
  simp only [fieldKK, wordXKK, BitVec.getLsbD_extractLsb', getLsbD_wordNNN, getLsbD_lowXKK]
  have h1 : i < 12 := by omega
  simp [hi, h1]

@[simp] theorem category_wordXKK (c : Nibble) (x : Reg) (kk : Byte) :
    category (wordXKK c x kk) = c :=
  category_wordNNN c _

@[simp] theorem category_wordXYN (c : Nibble) (x y : Reg) (n : Nibble) :
    category (wordXYN c x y n) = c :=
  category_wordNNN c _

@[simp] theorem fieldX_wordXYN (c : Nibble) (x y : Reg) (n : Nibble) :
    fieldX (wordXYN c x y n) = x :=
  fieldX_wordXKK c x _

@[simp] theorem fieldY_wordXYN (c : Nibble) (x y : Reg) (n : Nibble) :
    fieldY (wordXYN c x y n) = y := by
  have h : (wordXYN c x y n).extractLsb' 4 4 = regBits y := by
    refine BitVec.eq_of_getLsbD_eq fun i hi => ?_
    simp only [wordXYN, wordXKK, BitVec.getLsbD_extractLsb', getLsbD_wordNNN, getLsbD_lowXKK,
      getLsbD_lowYN]
    have h1 : 4 + i < 12 := by omega
    have h2 : 4 + i < 8 := by omega
    have h3 : ¬ 4 + i < 4 := by omega
    simp [hi, h1, h2, h3]
  rw [fieldY, h, toFin_regBits]

@[simp] theorem fieldN_wordXYN (c : Nibble) (x y : Reg) (n : Nibble) :
    fieldN (wordXYN c x y n) = n := by
  refine BitVec.eq_of_getLsbD_eq fun i hi => ?_
  simp only [fieldN, wordXYN, wordXKK, BitVec.getLsbD_extractLsb', getLsbD_wordNNN, getLsbD_lowXKK,
    getLsbD_lowYN]
  have h1 : i < 12 := by omega
  have h2 : i < 8 := by omega
  simp [hi, h1, h2]

/-- A word is its category over its address view (R81). -/
theorem wordNNN_fields (op : Word) : wordNNN (category op) (fieldNNN op) = op := by
  refine BitVec.eq_of_getLsbD_eq fun i hi => ?_
  simp only [getLsbD_wordNNN, category, fieldNNN, BitVec.getLsbD_extractLsb']
  split
  · simp [*]
  · have h1 : i - 12 < 4 := by omega
    have h2 : 12 + (i - 12) = i := by omega
    simp [h1, h2]

/-- A word is its category, its `x` and its byte view (R81). -/
theorem wordXKK_fields (op : Word) : wordXKK (category op) (fieldX op) (fieldKK op) = op := by
  have h : lowXKK (fieldX op) (fieldKK op) = fieldNNN op := by
    refine BitVec.eq_of_getLsbD_eq fun i hi => ?_
    simp only [getLsbD_lowXKK, fieldX, fieldKK, fieldNNN, regBits_toFin,
      BitVec.getLsbD_extractLsb']
    split
    · simp [*]
    · have h1 : i - 8 < 4 := by omega
      have h2 : 8 + (i - 8) = i := by omega
      simp [h1, h2, hi]
  rw [wordXKK, h, wordNNN_fields]

/-- A word is its four nibbles (R81). -/
theorem wordXYN_fields (op : Word) :
    wordXYN (category op) (fieldX op) (fieldY op) (fieldN op) = op := by
  have h : lowYN (fieldY op) (fieldN op) = fieldKK op := by
    refine BitVec.eq_of_getLsbD_eq fun i hi => ?_
    simp only [getLsbD_lowYN, fieldY, fieldN, fieldKK, regBits_toFin, BitVec.getLsbD_extractLsb']
    split
    · simp [*]
    · have h1 : i - 4 < 4 := by omega
      have h2 : 4 + (i - 4) = i := by omega
      simp [h1, h2, hi]
  rw [wordXYN, h, wordXKK_fields]

/-! The fields as quotients and remainders (R82). -/

theorem category_toNat (op : Word) : (category op).toNat = op.toNat / 0x1000 := by
  simp [category, BitVec.extractLsb'_toNat, Nat.shiftRight_eq_div_pow]
  omega

theorem fieldX_val (op : Word) : (fieldX op).val = op.toNat / 0x100 % 0x10 := by
  simp [fieldX, Nat.shiftRight_eq_div_pow]

theorem fieldY_val (op : Word) : (fieldY op).val = op.toNat / 0x10 % 0x10 := by
  simp [fieldY, Nat.shiftRight_eq_div_pow]

theorem fieldN_toNat (op : Word) : (fieldN op).toNat = op.toNat % 0x10 := by
  simp [fieldN, BitVec.extractLsb'_toNat, Nat.shiftRight_eq_div_pow]

theorem fieldKK_toNat (op : Word) : (fieldKK op).toNat = op.toNat % 0x100 := by
  simp [fieldKK, BitVec.extractLsb'_toNat, Nat.shiftRight_eq_div_pow]

theorem fieldNNN_toNat (op : Word) : (fieldNNN op).toNat = op.toNat % 0x1000 := by
  simp [fieldNNN, BitVec.extractLsb'_toNat, Nat.shiftRight_eq_div_pow]

/-- The two bytes of a word, joined again, are the word (R63). -/
theorem wordOfBytes_bytesOfWord (op : Word) :
    wordOfBytes (op.extractLsb' 8 8) (op.extractLsb' 0 8) = op := by
  refine BitVec.eq_of_getLsbD_eq fun i hi => ?_
  have h : (wordOfBytes (op.extractLsb' 8 8) (op.extractLsb' 0 8)).getLsbD i
      = if i < 8 then (op.extractLsb' 0 8).getLsbD i else (op.extractLsb' 8 8).getLsbD (i - 8) :=
    BitVec.getLsbD_append (x := op.extractLsb' 8 8) (y := op.extractLsb' 0 8)
  simp only [h, BitVec.getLsbD_extractLsb']
  split
  · simp [*]
  · have h1 : i - 8 < 8 := by omega
    have h2 : 8 + (i - 8) = i := by omega
    simp [h1, h2]

end Sys2Proof
end

