-- ==== Sys2Proof/Laws/Memory.lean ====
section
/-! SUPPORT. What the memory primitives do (R61, R70): a read after a write, and the canonical form
kept by every operation. -/

namespace Sys2Proof.Machine

theorem Memory.lookup_insert (m : Memory) (a b : Nat) (v : Byte) :
    (m.insert a v).lookup b = if a = b then some v else m.lookup b := by
  induction m with
  | nil => simp [insert, lookup]
  | cons c m ih =>
    obtain ⟨k, w⟩ := c
    simp only [insert]
    split
    · simp [lookup]
    · split
      · subst a
        by_cases h : k = b <;> simp [lookup, h]
      · by_cases h : k = b
        · subst b
          simp [lookup, *]
        · simp [lookup, h, ih]

theorem Memory.lookup_erase (m : Memory) (a b : Nat) :
    (m.erase a).lookup b = if a = b then none else m.lookup b := by
  induction m with
  | nil => simp [erase, lookup]
  | cons c m ih =>
    obtain ⟨k, w⟩ := c
    have ih' : Memory.lookup (List.filter (fun c => c.1 != a) m) b
        = if a = b then none else Memory.lookup m b := ih
    by_cases hk : k = a
    · subst a
      by_cases h : k = b
      · subst b
        simpa [erase] using ih'
      · simp [erase, h, ih', lookup]
    · by_cases h : k = b
      · subst b
        simp [erase, lookup, hk, Ne.symm hk]
      · simp [erase, lookup, hk, h, ih']

/-- `MemRead` after `MemWrite` (R61, R70): the byte written there, every other byte as before. -/
theorem Memory.read_write (m : Memory) (a b : Nat) (v : Byte) :
    (m.write a v).read b = if a = b then v else m.read b := by
  unfold write read
  split
  · rw [lookup_erase]
    split
    · subst b; simp [*]
    · rfl
  · rw [lookup_insert]
    split <;> rfl

@[simp] theorem Memory.read_nil (a : Nat) : Memory.read [] a = resetByte a := rfl

/-- Bytes stored in a row (R173, R174, R45): each at its address, every other byte as before. -/
theorem Memory.read_writeBytes (m : Memory) (a b : Nat) (bs : List Byte) :
    (m.writeBytes a bs).read b =
      if a ≤ b then bs.getD (b - a) (m.read b) else m.read b := by
  induction bs generalizing m a with
  | nil => simp [writeBytes]
  | cons x xs ih =>
    rw [writeBytes, ih, read_write]
    by_cases h : a = b
    · subst b
      have h1 : ¬ a + 1 ≤ a := by omega
      simp [h1]
    · by_cases h1 : a ≤ b
      · have h2 : a + 1 ≤ b := by omega
        have h3 : b - a = b - (a + 1) + 1 := by omega
        simp only [h, h1, h2, if_true, if_false]
        rw [h3, List.getD_cons_succ]
      · have h2 : ¬ a + 1 ≤ b := by omega
        simp [h, h1, h2]

/-- Outside the stored bytes memory is as before. -/
theorem Memory.read_writeBytes_outside {m : Memory} {a b : Nat} {bs : List Byte}
    (h : ¬ (a ≤ b ∧ b < a + bs.length)) : (m.writeBytes a bs).read b = m.read b := by
  rw [read_writeBytes]
  split
  · rw [List.getD_eq_default]
    omega
  · rfl

theorem Memory.mem_insert {m : Memory} {a : Nat} {v : Byte} {c : Host.Cell}
    (h : c ∈ m.insert a v) : c = (a, v) ∨ c ∈ m := by
  induction m with
  | nil => simpa [insert] using h
  | cons d m ih =>
    obtain ⟨k, w⟩ := d
    simp only [insert] at h
    split at h
    · simpa using h
    · split at h
      · simp only [List.mem_cons] at h ⊢
        tauto
      · simp only [List.mem_cons] at h ⊢
        rcases h with h | h
        · tauto
        · rcases ih h with h | h <;> tauto

theorem Memory.pairwise_insert {m : Memory} (a : Nat) (v : Byte)
    (h : m.Pairwise fun c d => c.1 < d.1) : (m.insert a v).Pairwise fun c d => c.1 < d.1 := by
  induction m with
  | nil => simp [insert]
  | cons d m ih =>
    obtain ⟨k, w⟩ := d
    rw [List.pairwise_cons] at h
    simp only [insert]
    split
    · refine List.pairwise_cons.2 ⟨fun c hc => ?_, List.pairwise_cons.2 h⟩
      rcases List.mem_cons.1 hc with rfl | hc
      · assumption
      · exact Nat.lt_trans (by assumption) (h.1 c hc)
    · split
      · subst a
        exact List.pairwise_cons.2 h
      · refine List.pairwise_cons.2 ⟨fun c hc => ?_, ih h.2⟩
        rcases mem_insert hc with rfl | hc
        · show k < a
          omega
        · exact h.1 c hc

/-- `MemWrite` keeps the canonical form, at every address of the array. -/
theorem Memory.wf_write {m : Memory} {a : Nat} (v : Byte) (h : m.wf) (ha : a < Config.memSize) :
    (m.write a v).wf := by
  unfold write
  split
  · exact ⟨h.1.filter _, fun c hc => h.2 c (List.mem_filter.1 hc).1⟩
  · refine ⟨pairwise_insert a v h.1, fun c hc => ?_⟩
    rcases mem_insert hc with rfl | hc
    · exact ⟨ha, by assumption⟩
    · exact h.2 c hc

/-- Bytes stored in a row keep the canonical form, where all of them lie in the array. -/
theorem Memory.wf_writeBytes {m : Memory} {a : Nat} {bs : List Byte} (h : m.wf)
    (ha : a + bs.length ≤ Config.memSize) : (m.writeBytes a bs).wf := by
  induction bs generalizing m a with
  | nil => exact h
  | cons b bs ih =>
    simp only [List.length_cons] at ha
    exact ih (wf_write b h (by omega)) (by omega)

theorem Memory.wf_nil : Memory.wf [] := by simp [wf]

/-- The memory of the reset state has the form. -/
theorem State.reset_mem_wf : State.reset.mem.wf := Memory.wf_nil

end Sys2Proof.Machine
end

