-- ==== Sys2Proof/Laws/State.lean ====
section
/-! SUPPORT. One lemma per field per named update of the state (Machine/Ops.lean), each true by rfl:
no proof unfolds a record update. -/

namespace Sys2Proof.Machine

variable (s : State)

/-! setV -/

@[simp] theorem State.setV_v (x : Reg) (b : Byte) : (s.setV x b).v = s.v.set x.val b x.isLt := rfl
@[simp] theorem State.setV_idx (x : Reg) (b : Byte) : (s.setV x b).idx = s.idx := rfl
@[simp] theorem State.setV_pc (x : Reg) (b : Byte) : (s.setV x b).pc = s.pc := rfl
@[simp] theorem State.setV_stack (x : Reg) (b : Byte) : (s.setV x b).stack = s.stack := rfl
@[simp] theorem State.setV_sp (x : Reg) (b : Byte) : (s.setV x b).sp = s.sp := rfl
@[simp] theorem State.setV_dt (x : Reg) (b : Byte) : (s.setV x b).dt = s.dt := rfl
@[simp] theorem State.setV_st (x : Reg) (b : Byte) : (s.setV x b).st = s.st := rfl
@[simp] theorem State.setV_mem (x : Reg) (b : Byte) : (s.setV x b).mem = s.mem := rfl
@[simp] theorem State.setV_keys (x : Reg) (b : Byte) : (s.setV x b).keys = s.keys := rfl
@[simp] theorem State.setV_disp (x : Reg) (b : Byte) : (s.setV x b).disp = s.disp := rfl
@[simp] theorem State.setV_halted (x : Reg) (b : Byte) : (s.setV x b).halted = s.halted := rfl
@[simp] theorem State.setV_faultCause (x : Reg) (b : Byte) :
    (s.setV x b).faultCause = s.faultCause := rfl
@[simp] theorem State.setV_faultOpcode (x : Reg) (b : Byte) :
    (s.setV x b).faultOpcode = s.faultOpcode := rfl
@[simp] theorem State.setV_faultAddr (x : Reg) (b : Byte) :
    (s.setV x b).faultAddr = s.faultAddr := rfl
@[simp] theorem State.setV_keyWait (x : Reg) (b : Byte) : (s.setV x b).keyWait = s.keyWait := rfl
@[simp] theorem State.setV_cycled (x : Reg) (b : Byte) : (s.setV x b).cycled = s.cycled := rfl
@[simp] theorem State.setV_events (x : Reg) (b : Byte) : (s.setV x b).events = s.events := rfl
@[simp] theorem State.setV_rndIn (x : Reg) (b : Byte) : (s.setV x b).rndIn = s.rndIn := rfl
@[simp] theorem State.setV_draws (x : Reg) (b : Byte) : (s.setV x b).draws = s.draws := rfl

/-! setRegs -/

@[simp] theorem State.setRegs_v (w : Vector Byte 16) : (s.setRegs w).v = w := rfl
@[simp] theorem State.setRegs_idx (w : Vector Byte 16) : (s.setRegs w).idx = s.idx := rfl
@[simp] theorem State.setRegs_pc (w : Vector Byte 16) : (s.setRegs w).pc = s.pc := rfl
@[simp] theorem State.setRegs_stack (w : Vector Byte 16) : (s.setRegs w).stack = s.stack := rfl
@[simp] theorem State.setRegs_sp (w : Vector Byte 16) : (s.setRegs w).sp = s.sp := rfl
@[simp] theorem State.setRegs_dt (w : Vector Byte 16) : (s.setRegs w).dt = s.dt := rfl
@[simp] theorem State.setRegs_st (w : Vector Byte 16) : (s.setRegs w).st = s.st := rfl
@[simp] theorem State.setRegs_mem (w : Vector Byte 16) : (s.setRegs w).mem = s.mem := rfl
@[simp] theorem State.setRegs_keys (w : Vector Byte 16) : (s.setRegs w).keys = s.keys := rfl
@[simp] theorem State.setRegs_disp (w : Vector Byte 16) : (s.setRegs w).disp = s.disp := rfl
@[simp] theorem State.setRegs_halted (w : Vector Byte 16) : (s.setRegs w).halted = s.halted := rfl
@[simp] theorem State.setRegs_faultCause (w : Vector Byte 16) :
    (s.setRegs w).faultCause = s.faultCause := rfl
@[simp] theorem State.setRegs_faultOpcode (w : Vector Byte 16) :
    (s.setRegs w).faultOpcode = s.faultOpcode := rfl
@[simp] theorem State.setRegs_faultAddr (w : Vector Byte 16) :
    (s.setRegs w).faultAddr = s.faultAddr := rfl
@[simp] theorem State.setRegs_keyWait (w : Vector Byte 16) :
    (s.setRegs w).keyWait = s.keyWait := rfl
@[simp] theorem State.setRegs_cycled (w : Vector Byte 16) : (s.setRegs w).cycled = s.cycled := rfl
@[simp] theorem State.setRegs_events (w : Vector Byte 16) : (s.setRegs w).events = s.events := rfl
@[simp] theorem State.setRegs_rndIn (w : Vector Byte 16) : (s.setRegs w).rndIn = s.rndIn := rfl
@[simp] theorem State.setRegs_draws (w : Vector Byte 16) : (s.setRegs w).draws = s.draws := rfl

/-! setIdx -/

@[simp] theorem State.setIdx_v (a : Word) : (s.setIdx a).v = s.v := rfl
@[simp] theorem State.setIdx_idx (a : Word) : (s.setIdx a).idx = a := rfl
@[simp] theorem State.setIdx_pc (a : Word) : (s.setIdx a).pc = s.pc := rfl
@[simp] theorem State.setIdx_stack (a : Word) : (s.setIdx a).stack = s.stack := rfl
@[simp] theorem State.setIdx_sp (a : Word) : (s.setIdx a).sp = s.sp := rfl
@[simp] theorem State.setIdx_dt (a : Word) : (s.setIdx a).dt = s.dt := rfl
@[simp] theorem State.setIdx_st (a : Word) : (s.setIdx a).st = s.st := rfl
@[simp] theorem State.setIdx_mem (a : Word) : (s.setIdx a).mem = s.mem := rfl
@[simp] theorem State.setIdx_keys (a : Word) : (s.setIdx a).keys = s.keys := rfl
@[simp] theorem State.setIdx_disp (a : Word) : (s.setIdx a).disp = s.disp := rfl
@[simp] theorem State.setIdx_halted (a : Word) : (s.setIdx a).halted = s.halted := rfl
@[simp] theorem State.setIdx_faultCause (a : Word) : (s.setIdx a).faultCause = s.faultCause := rfl
@[simp] theorem State.setIdx_faultOpcode (a : Word) :
    (s.setIdx a).faultOpcode = s.faultOpcode := rfl
@[simp] theorem State.setIdx_faultAddr (a : Word) : (s.setIdx a).faultAddr = s.faultAddr := rfl
@[simp] theorem State.setIdx_keyWait (a : Word) : (s.setIdx a).keyWait = s.keyWait := rfl
@[simp] theorem State.setIdx_cycled (a : Word) : (s.setIdx a).cycled = s.cycled := rfl
@[simp] theorem State.setIdx_events (a : Word) : (s.setIdx a).events = s.events := rfl
@[simp] theorem State.setIdx_rndIn (a : Word) : (s.setIdx a).rndIn = s.rndIn := rfl
@[simp] theorem State.setIdx_draws (a : Word) : (s.setIdx a).draws = s.draws := rfl

/-! setPc -/

@[simp] theorem State.setPc_v (a : Word) : (s.setPc a).v = s.v := rfl
@[simp] theorem State.setPc_idx (a : Word) : (s.setPc a).idx = s.idx := rfl
@[simp] theorem State.setPc_pc (a : Word) : (s.setPc a).pc = a := rfl
@[simp] theorem State.setPc_stack (a : Word) : (s.setPc a).stack = s.stack := rfl
@[simp] theorem State.setPc_sp (a : Word) : (s.setPc a).sp = s.sp := rfl
@[simp] theorem State.setPc_dt (a : Word) : (s.setPc a).dt = s.dt := rfl
@[simp] theorem State.setPc_st (a : Word) : (s.setPc a).st = s.st := rfl
@[simp] theorem State.setPc_mem (a : Word) : (s.setPc a).mem = s.mem := rfl
@[simp] theorem State.setPc_keys (a : Word) : (s.setPc a).keys = s.keys := rfl
@[simp] theorem State.setPc_disp (a : Word) : (s.setPc a).disp = s.disp := rfl
@[simp] theorem State.setPc_halted (a : Word) : (s.setPc a).halted = s.halted := rfl
@[simp] theorem State.setPc_faultCause (a : Word) : (s.setPc a).faultCause = s.faultCause := rfl
@[simp] theorem State.setPc_faultOpcode (a : Word) : (s.setPc a).faultOpcode = s.faultOpcode := rfl
@[simp] theorem State.setPc_faultAddr (a : Word) : (s.setPc a).faultAddr = s.faultAddr := rfl
@[simp] theorem State.setPc_keyWait (a : Word) : (s.setPc a).keyWait = s.keyWait := rfl
@[simp] theorem State.setPc_cycled (a : Word) : (s.setPc a).cycled = s.cycled := rfl
@[simp] theorem State.setPc_events (a : Word) : (s.setPc a).events = s.events := rfl
@[simp] theorem State.setPc_rndIn (a : Word) : (s.setPc a).rndIn = s.rndIn := rfl
@[simp] theorem State.setPc_draws (a : Word) : (s.setPc a).draws = s.draws := rfl

/-! setStack -/

@[simp] theorem State.setStack_v (k : Vector Word 16) (p : Fin 17) : (s.setStack k p).v = s.v := rfl
@[simp] theorem State.setStack_idx (k : Vector Word 16) (p : Fin 17) :
    (s.setStack k p).idx = s.idx := rfl
@[simp] theorem State.setStack_pc (k : Vector Word 16) (p : Fin 17) :
    (s.setStack k p).pc = s.pc := rfl
@[simp] theorem State.setStack_stack (k : Vector Word 16) (p : Fin 17) :
    (s.setStack k p).stack = k := rfl
@[simp] theorem State.setStack_sp (k : Vector Word 16) (p : Fin 17) : (s.setStack k p).sp = p := rfl
@[simp] theorem State.setStack_dt (k : Vector Word 16) (p : Fin 17) :
    (s.setStack k p).dt = s.dt := rfl
@[simp] theorem State.setStack_st (k : Vector Word 16) (p : Fin 17) :
    (s.setStack k p).st = s.st := rfl
@[simp] theorem State.setStack_mem (k : Vector Word 16) (p : Fin 17) :
    (s.setStack k p).mem = s.mem := rfl
@[simp] theorem State.setStack_keys (k : Vector Word 16) (p : Fin 17) :
    (s.setStack k p).keys = s.keys := rfl
@[simp] theorem State.setStack_disp (k : Vector Word 16) (p : Fin 17) :
    (s.setStack k p).disp = s.disp := rfl
@[simp] theorem State.setStack_halted (k : Vector Word 16) (p : Fin 17) :
    (s.setStack k p).halted = s.halted := rfl
@[simp] theorem State.setStack_faultCause (k : Vector Word 16) (p : Fin 17) :
    (s.setStack k p).faultCause = s.faultCause := rfl
@[simp] theorem State.setStack_faultOpcode (k : Vector Word 16) (p : Fin 17) :
    (s.setStack k p).faultOpcode = s.faultOpcode := rfl
@[simp] theorem State.setStack_faultAddr (k : Vector Word 16) (p : Fin 17) :
    (s.setStack k p).faultAddr = s.faultAddr := rfl
@[simp] theorem State.setStack_keyWait (k : Vector Word 16) (p : Fin 17) :
    (s.setStack k p).keyWait = s.keyWait := rfl
@[simp] theorem State.setStack_cycled (k : Vector Word 16) (p : Fin 17) :
    (s.setStack k p).cycled = s.cycled := rfl
@[simp] theorem State.setStack_events (k : Vector Word 16) (p : Fin 17) :
    (s.setStack k p).events = s.events := rfl
@[simp] theorem State.setStack_rndIn (k : Vector Word 16) (p : Fin 17) :
    (s.setStack k p).rndIn = s.rndIn := rfl
@[simp] theorem State.setStack_draws (k : Vector Word 16) (p : Fin 17) :
    (s.setStack k p).draws = s.draws := rfl

/-! setDt -/

@[simp] theorem State.setDt_v (b : Byte) : (s.setDt b).v = s.v := rfl
@[simp] theorem State.setDt_idx (b : Byte) : (s.setDt b).idx = s.idx := rfl
@[simp] theorem State.setDt_pc (b : Byte) : (s.setDt b).pc = s.pc := rfl
@[simp] theorem State.setDt_stack (b : Byte) : (s.setDt b).stack = s.stack := rfl
@[simp] theorem State.setDt_sp (b : Byte) : (s.setDt b).sp = s.sp := rfl
@[simp] theorem State.setDt_dt (b : Byte) : (s.setDt b).dt = b := rfl
@[simp] theorem State.setDt_st (b : Byte) : (s.setDt b).st = s.st := rfl
@[simp] theorem State.setDt_mem (b : Byte) : (s.setDt b).mem = s.mem := rfl
@[simp] theorem State.setDt_keys (b : Byte) : (s.setDt b).keys = s.keys := rfl
@[simp] theorem State.setDt_disp (b : Byte) : (s.setDt b).disp = s.disp := rfl
@[simp] theorem State.setDt_halted (b : Byte) : (s.setDt b).halted = s.halted := rfl
@[simp] theorem State.setDt_faultCause (b : Byte) : (s.setDt b).faultCause = s.faultCause := rfl
@[simp] theorem State.setDt_faultOpcode (b : Byte) : (s.setDt b).faultOpcode = s.faultOpcode := rfl
@[simp] theorem State.setDt_faultAddr (b : Byte) : (s.setDt b).faultAddr = s.faultAddr := rfl
@[simp] theorem State.setDt_keyWait (b : Byte) : (s.setDt b).keyWait = s.keyWait := rfl
@[simp] theorem State.setDt_cycled (b : Byte) : (s.setDt b).cycled = s.cycled := rfl
@[simp] theorem State.setDt_events (b : Byte) : (s.setDt b).events = s.events := rfl
@[simp] theorem State.setDt_rndIn (b : Byte) : (s.setDt b).rndIn = s.rndIn := rfl
@[simp] theorem State.setDt_draws (b : Byte) : (s.setDt b).draws = s.draws := rfl

/-! setSt -/

@[simp] theorem State.setSt_v (b : Byte) : (s.setSt b).v = s.v := rfl
@[simp] theorem State.setSt_idx (b : Byte) : (s.setSt b).idx = s.idx := rfl
@[simp] theorem State.setSt_pc (b : Byte) : (s.setSt b).pc = s.pc := rfl
@[simp] theorem State.setSt_stack (b : Byte) : (s.setSt b).stack = s.stack := rfl
@[simp] theorem State.setSt_sp (b : Byte) : (s.setSt b).sp = s.sp := rfl
@[simp] theorem State.setSt_dt (b : Byte) : (s.setSt b).dt = s.dt := rfl
@[simp] theorem State.setSt_st (b : Byte) : (s.setSt b).st = b := rfl
@[simp] theorem State.setSt_mem (b : Byte) : (s.setSt b).mem = s.mem := rfl
@[simp] theorem State.setSt_keys (b : Byte) : (s.setSt b).keys = s.keys := rfl
@[simp] theorem State.setSt_disp (b : Byte) : (s.setSt b).disp = s.disp := rfl
@[simp] theorem State.setSt_halted (b : Byte) : (s.setSt b).halted = s.halted := rfl
@[simp] theorem State.setSt_faultCause (b : Byte) : (s.setSt b).faultCause = s.faultCause := rfl
@[simp] theorem State.setSt_faultOpcode (b : Byte) : (s.setSt b).faultOpcode = s.faultOpcode := rfl
@[simp] theorem State.setSt_faultAddr (b : Byte) : (s.setSt b).faultAddr = s.faultAddr := rfl
@[simp] theorem State.setSt_keyWait (b : Byte) : (s.setSt b).keyWait = s.keyWait := rfl
@[simp] theorem State.setSt_cycled (b : Byte) : (s.setSt b).cycled = s.cycled := rfl
@[simp] theorem State.setSt_events (b : Byte) : (s.setSt b).events = s.events := rfl
@[simp] theorem State.setSt_rndIn (b : Byte) : (s.setSt b).rndIn = s.rndIn := rfl
@[simp] theorem State.setSt_draws (b : Byte) : (s.setSt b).draws = s.draws := rfl

/-! setMem -/

@[simp] theorem State.setMem_v (m : Memory) : (s.setMem m).v = s.v := rfl
@[simp] theorem State.setMem_idx (m : Memory) : (s.setMem m).idx = s.idx := rfl
@[simp] theorem State.setMem_pc (m : Memory) : (s.setMem m).pc = s.pc := rfl
@[simp] theorem State.setMem_stack (m : Memory) : (s.setMem m).stack = s.stack := rfl
@[simp] theorem State.setMem_sp (m : Memory) : (s.setMem m).sp = s.sp := rfl
@[simp] theorem State.setMem_dt (m : Memory) : (s.setMem m).dt = s.dt := rfl
@[simp] theorem State.setMem_st (m : Memory) : (s.setMem m).st = s.st := rfl
@[simp] theorem State.setMem_mem (m : Memory) : (s.setMem m).mem = m := rfl
@[simp] theorem State.setMem_keys (m : Memory) : (s.setMem m).keys = s.keys := rfl
@[simp] theorem State.setMem_disp (m : Memory) : (s.setMem m).disp = s.disp := rfl
@[simp] theorem State.setMem_halted (m : Memory) : (s.setMem m).halted = s.halted := rfl
@[simp] theorem State.setMem_faultCause (m : Memory) : (s.setMem m).faultCause = s.faultCause := rfl
@[simp] theorem State.setMem_faultOpcode (m : Memory) :
    (s.setMem m).faultOpcode = s.faultOpcode := rfl
@[simp] theorem State.setMem_faultAddr (m : Memory) : (s.setMem m).faultAddr = s.faultAddr := rfl
@[simp] theorem State.setMem_keyWait (m : Memory) : (s.setMem m).keyWait = s.keyWait := rfl
@[simp] theorem State.setMem_cycled (m : Memory) : (s.setMem m).cycled = s.cycled := rfl
@[simp] theorem State.setMem_events (m : Memory) : (s.setMem m).events = s.events := rfl
@[simp] theorem State.setMem_rndIn (m : Memory) : (s.setMem m).rndIn = s.rndIn := rfl
@[simp] theorem State.setMem_draws (m : Memory) : (s.setMem m).draws = s.draws := rfl

/-! setKeys -/

@[simp] theorem State.setKeys_v (k : Vector Bool 16) : (s.setKeys k).v = s.v := rfl
@[simp] theorem State.setKeys_idx (k : Vector Bool 16) : (s.setKeys k).idx = s.idx := rfl
@[simp] theorem State.setKeys_pc (k : Vector Bool 16) : (s.setKeys k).pc = s.pc := rfl
@[simp] theorem State.setKeys_stack (k : Vector Bool 16) : (s.setKeys k).stack = s.stack := rfl
@[simp] theorem State.setKeys_sp (k : Vector Bool 16) : (s.setKeys k).sp = s.sp := rfl
@[simp] theorem State.setKeys_dt (k : Vector Bool 16) : (s.setKeys k).dt = s.dt := rfl
@[simp] theorem State.setKeys_st (k : Vector Bool 16) : (s.setKeys k).st = s.st := rfl
@[simp] theorem State.setKeys_mem (k : Vector Bool 16) : (s.setKeys k).mem = s.mem := rfl
@[simp] theorem State.setKeys_keys (k : Vector Bool 16) : (s.setKeys k).keys = k := rfl
@[simp] theorem State.setKeys_disp (k : Vector Bool 16) : (s.setKeys k).disp = s.disp := rfl
@[simp] theorem State.setKeys_halted (k : Vector Bool 16) : (s.setKeys k).halted = s.halted := rfl
@[simp] theorem State.setKeys_faultCause (k : Vector Bool 16) :
    (s.setKeys k).faultCause = s.faultCause := rfl
@[simp] theorem State.setKeys_faultOpcode (k : Vector Bool 16) :
    (s.setKeys k).faultOpcode = s.faultOpcode := rfl
@[simp] theorem State.setKeys_faultAddr (k : Vector Bool 16) :
    (s.setKeys k).faultAddr = s.faultAddr := rfl
@[simp] theorem State.setKeys_keyWait (k : Vector Bool 16) :
    (s.setKeys k).keyWait = s.keyWait := rfl
@[simp] theorem State.setKeys_cycled (k : Vector Bool 16) : (s.setKeys k).cycled = s.cycled := rfl
@[simp] theorem State.setKeys_events (k : Vector Bool 16) : (s.setKeys k).events = s.events := rfl
@[simp] theorem State.setKeys_rndIn (k : Vector Bool 16) : (s.setKeys k).rndIn = s.rndIn := rfl
@[simp] theorem State.setKeys_draws (k : Vector Bool 16) : (s.setKeys k).draws = s.draws := rfl

/-! setDisp -/

@[simp] theorem State.setDisp_v (d : Display) : (s.setDisp d).v = s.v := rfl
@[simp] theorem State.setDisp_idx (d : Display) : (s.setDisp d).idx = s.idx := rfl
@[simp] theorem State.setDisp_pc (d : Display) : (s.setDisp d).pc = s.pc := rfl
@[simp] theorem State.setDisp_stack (d : Display) : (s.setDisp d).stack = s.stack := rfl
@[simp] theorem State.setDisp_sp (d : Display) : (s.setDisp d).sp = s.sp := rfl
@[simp] theorem State.setDisp_dt (d : Display) : (s.setDisp d).dt = s.dt := rfl
@[simp] theorem State.setDisp_st (d : Display) : (s.setDisp d).st = s.st := rfl
@[simp] theorem State.setDisp_mem (d : Display) : (s.setDisp d).mem = s.mem := rfl
@[simp] theorem State.setDisp_keys (d : Display) : (s.setDisp d).keys = s.keys := rfl
@[simp] theorem State.setDisp_disp (d : Display) : (s.setDisp d).disp = d := rfl
@[simp] theorem State.setDisp_halted (d : Display) : (s.setDisp d).halted = s.halted := rfl
@[simp] theorem State.setDisp_faultCause (d : Display) :
    (s.setDisp d).faultCause = s.faultCause := rfl
@[simp] theorem State.setDisp_faultOpcode (d : Display) :
    (s.setDisp d).faultOpcode = s.faultOpcode := rfl
@[simp] theorem State.setDisp_faultAddr (d : Display) : (s.setDisp d).faultAddr = s.faultAddr := rfl
@[simp] theorem State.setDisp_keyWait (d : Display) : (s.setDisp d).keyWait = s.keyWait := rfl
@[simp] theorem State.setDisp_cycled (d : Display) : (s.setDisp d).cycled = s.cycled := rfl
@[simp] theorem State.setDisp_events (d : Display) : (s.setDisp d).events = s.events := rfl
@[simp] theorem State.setDisp_rndIn (d : Display) : (s.setDisp d).rndIn = s.rndIn := rfl
@[simp] theorem State.setDisp_draws (d : Display) : (s.setDisp d).draws = s.draws := rfl

/-! setKeyWait -/

@[simp] theorem State.setKeyWait_v (w : Bool) : (s.setKeyWait w).v = s.v := rfl
@[simp] theorem State.setKeyWait_idx (w : Bool) : (s.setKeyWait w).idx = s.idx := rfl
@[simp] theorem State.setKeyWait_pc (w : Bool) : (s.setKeyWait w).pc = s.pc := rfl
@[simp] theorem State.setKeyWait_stack (w : Bool) : (s.setKeyWait w).stack = s.stack := rfl
@[simp] theorem State.setKeyWait_sp (w : Bool) : (s.setKeyWait w).sp = s.sp := rfl
@[simp] theorem State.setKeyWait_dt (w : Bool) : (s.setKeyWait w).dt = s.dt := rfl
@[simp] theorem State.setKeyWait_st (w : Bool) : (s.setKeyWait w).st = s.st := rfl
@[simp] theorem State.setKeyWait_mem (w : Bool) : (s.setKeyWait w).mem = s.mem := rfl
@[simp] theorem State.setKeyWait_keys (w : Bool) : (s.setKeyWait w).keys = s.keys := rfl
@[simp] theorem State.setKeyWait_disp (w : Bool) : (s.setKeyWait w).disp = s.disp := rfl
@[simp] theorem State.setKeyWait_halted (w : Bool) : (s.setKeyWait w).halted = s.halted := rfl
@[simp] theorem State.setKeyWait_faultCause (w : Bool) :
    (s.setKeyWait w).faultCause = s.faultCause := rfl
@[simp] theorem State.setKeyWait_faultOpcode (w : Bool) :
    (s.setKeyWait w).faultOpcode = s.faultOpcode := rfl
@[simp] theorem State.setKeyWait_faultAddr (w : Bool) :
    (s.setKeyWait w).faultAddr = s.faultAddr := rfl
@[simp] theorem State.setKeyWait_keyWait (w : Bool) : (s.setKeyWait w).keyWait = w := rfl
@[simp] theorem State.setKeyWait_cycled (w : Bool) : (s.setKeyWait w).cycled = s.cycled := rfl
@[simp] theorem State.setKeyWait_events (w : Bool) : (s.setKeyWait w).events = s.events := rfl
@[simp] theorem State.setKeyWait_rndIn (w : Bool) : (s.setKeyWait w).rndIn = s.rndIn := rfl
@[simp] theorem State.setKeyWait_draws (w : Bool) : (s.setKeyWait w).draws = s.draws := rfl

/-! setEvents -/

@[simp] theorem State.setEvents_v (es : List Event) : (s.setEvents es).v = s.v := rfl
@[simp] theorem State.setEvents_idx (es : List Event) : (s.setEvents es).idx = s.idx := rfl
@[simp] theorem State.setEvents_pc (es : List Event) : (s.setEvents es).pc = s.pc := rfl
@[simp] theorem State.setEvents_stack (es : List Event) : (s.setEvents es).stack = s.stack := rfl
@[simp] theorem State.setEvents_sp (es : List Event) : (s.setEvents es).sp = s.sp := rfl
@[simp] theorem State.setEvents_dt (es : List Event) : (s.setEvents es).dt = s.dt := rfl
@[simp] theorem State.setEvents_st (es : List Event) : (s.setEvents es).st = s.st := rfl
@[simp] theorem State.setEvents_mem (es : List Event) : (s.setEvents es).mem = s.mem := rfl
@[simp] theorem State.setEvents_keys (es : List Event) : (s.setEvents es).keys = s.keys := rfl
@[simp] theorem State.setEvents_disp (es : List Event) : (s.setEvents es).disp = s.disp := rfl
@[simp] theorem State.setEvents_halted (es : List Event) : (s.setEvents es).halted = s.halted := rfl
@[simp] theorem State.setEvents_faultCause (es : List Event) :
    (s.setEvents es).faultCause = s.faultCause := rfl
@[simp] theorem State.setEvents_faultOpcode (es : List Event) :
    (s.setEvents es).faultOpcode = s.faultOpcode := rfl
@[simp] theorem State.setEvents_faultAddr (es : List Event) :
    (s.setEvents es).faultAddr = s.faultAddr := rfl
@[simp] theorem State.setEvents_keyWait (es : List Event) :
    (s.setEvents es).keyWait = s.keyWait := rfl
@[simp] theorem State.setEvents_cycled (es : List Event) : (s.setEvents es).cycled = s.cycled := rfl
@[simp] theorem State.setEvents_events (es : List Event) : (s.setEvents es).events = es := rfl
@[simp] theorem State.setEvents_rndIn (es : List Event) : (s.setEvents es).rndIn = s.rndIn := rfl
@[simp] theorem State.setEvents_draws (es : List Event) : (s.setEvents es).draws = s.draws := rfl

/-! commit -/

@[simp] theorem State.commit_v : (s.commit).v = s.v := rfl
@[simp] theorem State.commit_idx : (s.commit).idx = s.idx := rfl
@[simp] theorem State.commit_pc : (s.commit).pc = s.pc1 := rfl
@[simp] theorem State.commit_stack : (s.commit).stack = s.stack := rfl
@[simp] theorem State.commit_sp : (s.commit).sp = s.sp := rfl
@[simp] theorem State.commit_dt : (s.commit).dt = s.dt := rfl
@[simp] theorem State.commit_st : (s.commit).st = s.st := rfl
@[simp] theorem State.commit_mem : (s.commit).mem = s.mem := rfl
@[simp] theorem State.commit_keys : (s.commit).keys = s.keys := rfl
@[simp] theorem State.commit_disp : (s.commit).disp = s.disp := rfl
@[simp] theorem State.commit_halted : (s.commit).halted = s.halted := rfl
@[simp] theorem State.commit_faultCause : (s.commit).faultCause = s.faultCause := rfl
@[simp] theorem State.commit_faultOpcode : (s.commit).faultOpcode = s.faultOpcode := rfl
@[simp] theorem State.commit_faultAddr : (s.commit).faultAddr = s.faultAddr := rfl
@[simp] theorem State.commit_keyWait : (s.commit).keyWait = false := rfl
@[simp] theorem State.commit_cycled : (s.commit).cycled = s.cycled := rfl
@[simp] theorem State.commit_events : (s.commit).events = s.events := rfl
@[simp] theorem State.commit_rndIn : (s.commit).rndIn = s.rndIn := rfl
@[simp] theorem State.commit_draws : (s.commit).draws = s.draws := rfl

/-! enterFault -/

@[simp] theorem State.enterFault_v (op : Word) (c : FaultCause) (a : Word) :
    (s.enterFault op c a).v = s.v := rfl
@[simp] theorem State.enterFault_idx (op : Word) (c : FaultCause) (a : Word) :
    (s.enterFault op c a).idx = s.idx := rfl
@[simp] theorem State.enterFault_pc (op : Word) (c : FaultCause) (a : Word) :
    (s.enterFault op c a).pc = s.pc := rfl
@[simp] theorem State.enterFault_stack (op : Word) (c : FaultCause) (a : Word) :
    (s.enterFault op c a).stack = s.stack := rfl
@[simp] theorem State.enterFault_sp (op : Word) (c : FaultCause) (a : Word) :
    (s.enterFault op c a).sp = s.sp := rfl
@[simp] theorem State.enterFault_dt (op : Word) (c : FaultCause) (a : Word) :
    (s.enterFault op c a).dt = s.dt := rfl
@[simp] theorem State.enterFault_st (op : Word) (c : FaultCause) (a : Word) :
    (s.enterFault op c a).st = s.st := rfl
@[simp] theorem State.enterFault_mem (op : Word) (c : FaultCause) (a : Word) :
    (s.enterFault op c a).mem = s.mem := rfl
@[simp] theorem State.enterFault_keys (op : Word) (c : FaultCause) (a : Word) :
    (s.enterFault op c a).keys = s.keys := rfl
@[simp] theorem State.enterFault_disp (op : Word) (c : FaultCause) (a : Word) :
    (s.enterFault op c a).disp = s.disp := rfl
@[simp] theorem State.enterFault_halted (op : Word) (c : FaultCause) (a : Word) :
    (s.enterFault op c a).halted = true := rfl
@[simp] theorem State.enterFault_faultCause (op : Word) (c : FaultCause) (a : Word) :
    (s.enterFault op c a).faultCause = c := rfl
@[simp] theorem State.enterFault_faultOpcode (op : Word) (c : FaultCause) (a : Word) :
    (s.enterFault op c a).faultOpcode = op := rfl
@[simp] theorem State.enterFault_faultAddr (op : Word) (c : FaultCause) (a : Word) :
    (s.enterFault op c a).faultAddr = a := rfl
@[simp] theorem State.enterFault_keyWait (op : Word) (c : FaultCause) (a : Word) :
    (s.enterFault op c a).keyWait = false := rfl
@[simp] theorem State.enterFault_cycled (op : Word) (c : FaultCause) (a : Word) :
    (s.enterFault op c a).cycled = s.cycled := rfl
@[simp] theorem State.enterFault_events (op : Word) (c : FaultCause) (a : Word) :
    (s.enterFault op c a).events = s.events := rfl
@[simp] theorem State.enterFault_rndIn (op : Word) (c : FaultCause) (a : Word) :
    (s.enterFault op c a).rndIn = s.rndIn := rfl
@[simp] theorem State.enterFault_draws (op : Word) (c : FaultCause) (a : Word) :
    (s.enterFault op c a).draws = s.draws := rfl

/-! beginCycle -/

@[simp] theorem State.beginCycle_v (r : Option Byte) : (s.beginCycle r).v = s.v := rfl
@[simp] theorem State.beginCycle_idx (r : Option Byte) : (s.beginCycle r).idx = s.idx := rfl
@[simp] theorem State.beginCycle_pc (r : Option Byte) : (s.beginCycle r).pc = s.pc := rfl
@[simp] theorem State.beginCycle_stack (r : Option Byte) : (s.beginCycle r).stack = s.stack := rfl
@[simp] theorem State.beginCycle_sp (r : Option Byte) : (s.beginCycle r).sp = s.sp := rfl
@[simp] theorem State.beginCycle_dt (r : Option Byte) : (s.beginCycle r).dt = s.dt := rfl
@[simp] theorem State.beginCycle_st (r : Option Byte) : (s.beginCycle r).st = s.st := rfl
@[simp] theorem State.beginCycle_mem (r : Option Byte) : (s.beginCycle r).mem = s.mem := rfl
@[simp] theorem State.beginCycle_keys (r : Option Byte) : (s.beginCycle r).keys = s.keys := rfl
@[simp] theorem State.beginCycle_disp (r : Option Byte) : (s.beginCycle r).disp = s.disp := rfl
@[simp] theorem State.beginCycle_halted (r : Option Byte) :
    (s.beginCycle r).halted = s.halted := rfl
@[simp] theorem State.beginCycle_faultCause (r : Option Byte) :
    (s.beginCycle r).faultCause = s.faultCause := rfl
@[simp] theorem State.beginCycle_faultOpcode (r : Option Byte) :
    (s.beginCycle r).faultOpcode = s.faultOpcode := rfl
@[simp] theorem State.beginCycle_faultAddr (r : Option Byte) :
    (s.beginCycle r).faultAddr = s.faultAddr := rfl
@[simp] theorem State.beginCycle_keyWait (r : Option Byte) :
    (s.beginCycle r).keyWait = s.keyWait := rfl
@[simp] theorem State.beginCycle_cycled (r : Option Byte) : (s.beginCycle r).cycled = true := rfl
@[simp] theorem State.beginCycle_events (r : Option Byte) :
    (s.beginCycle r).events = s.events := rfl
@[simp] theorem State.beginCycle_rndIn (r : Option Byte) : (s.beginCycle r).rndIn = r := rfl
@[simp] theorem State.beginCycle_draws (r : Option Byte) :
    (s.beginCycle r).draws = (match r with | some _ => s.draws | none => s.draws + 1) := rfl

end Sys2Proof.Machine
end

