-- ==== Sys2Proof/Laws/Ops.lean ====
section
/-! SUPPORT. For each shared operation, once, everything it can do: the provers cite these instead
of unfolding the operation. -/

namespace Sys2Proof.Machine

/-- A fault is a next state: fault entry (R232). -/
theorem raise_eq (op : Word) (c : FaultCause) (a : Word) (s : State) :
    raise op c a s = .next (s.enterFault op c a) := rfl

/-- The fetch (R91): nothing beyond 0xFFE, else the two bytes at `pc`. -/
theorem State.fetch_cases (s : State) :
    (0xFFE < s.pc.toNat ∧ s.fetch = none) ∨
    (s.pc.toNat ≤ 0xFFE ∧
      s.fetch = some (wordOfBytes (s.mem.read s.pc.toNat) (s.mem.read (s.pc.toNat + 1)))) := by
  unfold fetch
  split
  · exact .inl ⟨by assumption, rfl⟩
  · exact .inr ⟨by omega, rfl⟩

/-- The fetch reads `pc` and memory only. -/
theorem State.fetch_congr {s t : State} (hp : t.pc = s.pc) (hm : t.mem = s.mem) :
    t.fetch = s.fetch := by
  simp [fetch, hp, hm]

theorem wordOfBytes_toNat (hi lo : Byte) :
    (wordOfBytes hi lo).toNat = hi.toNat * 256 + lo.toNat := by
  have h : (wordOfBytes hi lo).toNat = hi.toNat <<< 8 ||| lo.toNat := BitVec.toNat_append ..
  rw [h, Nat.shiftLeft_eq, Nat.mul_comm, ← Nat.two_pow_add_eq_or_of_lt (by omega : lo.toNat < 2 ^ 8)]

/-- The push (R121): full at depth 16, else the slot at the old depth and one more. -/
theorem State.push_cases (s : State) (v : Word) :
    (s.sp.val = 16 ∧ s.push v = none) ∨
    ∃ h : s.sp.val < 16,
      s.push v = some (s.stack.set s.sp.val v h, ⟨s.sp.val + 1, by omega⟩) := by
  by_cases h : s.sp.val < 16
  · exact .inr ⟨h, by simp [push, h]⟩
  · exact .inl ⟨by omega, by simp [push, h]⟩

/-- The pop (R122): empty at depth 0, else the newest entry and one less. -/
theorem State.pop_cases (s : State) :
    (s.sp.val = 0 ∧ s.pop = none) ∨
    ∃ h : 0 < s.sp.val,
      s.pop = some (s.stack[s.sp.val - 1], ⟨s.sp.val - 1, by omega⟩) := by
  by_cases h : 0 < s.sp.val
  · exact .inr ⟨h, by simp [pop, h]⟩
  · exact .inl ⟨by omega, by simp [pop, h]⟩

/-- The bounds check (R62): the lowest address above 0xFFF, or every address inside. -/
theorem State.dataFault_cases (s : State) (n : Nat) :
    (0 < n ∧ 0xFFF < s.idx.toNat + (n - 1) ∧
      s.dataFault n = some (BitVec.ofNat 16 (max s.idx.toNat 0x1000))) ∨
    ((n = 0 ∨ s.idx.toNat + n ≤ 0x1000) ∧ s.dataFault n = none) := by
  by_cases h : 0 < n ∧ 0xFFF < s.idx.toNat + (n - 1)
  · exact .inl ⟨h.1, h.2, by simp only [dataFault, dataAddr, h, and_self, if_true]⟩
  · refine .inr ⟨by omega, ?_⟩
    simp only [dataFault, dataAddr]
    exact if_neg h

/-- A data instruction (R62): fault entry and nothing else, or the state it completes in. -/
theorem accessData_cases (op : Word) (n : Nat) (s d : State) :
    (0 < n ∧ 0xFFF < s.idx.toNat + (n - 1) ∧ accessData op n s d =
      .next (s.enterFault op .dataOutOfBounds (BitVec.ofNat 16 (max s.idx.toNat 0x1000)))) ∨
    ((n = 0 ∨ s.idx.toNat + n ≤ 0x1000) ∧ accessData op n s d = .next d) := by
  rcases s.dataFault_cases n with ⟨h1, h2, h3⟩ | ⟨h1, h2⟩
  · exact .inl ⟨h1, h2, by simp [accessData, h3, raise_eq]⟩
  · exact .inr ⟨h1, by simp [accessData, h2]⟩

/-- The key a number names (R216). -/
theorem State.keyAt_cases (s : State) (k : Byte) :
    (0xF < k.toNat ∧ s.keyAt k = none) ∨
    ∃ h : k.toNat < 16, s.keyAt k = some s.keys[k.toNat] := by
  by_cases h : k.toNat < 16
  · exact .inr ⟨h, by simp [keyAt, h]⟩
  · exact .inl ⟨by omega, by simp [keyAt, h]⟩

/-- A skip (R126): one word or two. -/
theorem skipIf_eq (c : Bool) (s : State) :
    skipIf c s = .next (s.commit.setPc (if c then s.pc1 + 2 else s.pc1)) := by
  cases c <;> rfl

/-- The skips on a key (R210, R211): fault entry where the number names no key (R216). -/
theorem skipOnKey_cases (op : Word) (k : Byte) (p : Bool) (s : State) :
    (0xF < k.toNat ∧
      skipOnKey op k p s = .next (s.enterFault op .keyIndexOutOfRange (zextByte k))) ∨
    ∃ h : k.toNat < 16, skipOnKey op k p s =
      .next (s.commit.setPc (if s.keys[k.toNat] = p then s.pc1 + 2 else s.pc1)) := by
  rcases s.keyAt_cases k with ⟨h, hk⟩ | ⟨h, hk⟩
  · exact .inl ⟨h, by simp [skipOnKey, hk, raise_eq]⟩
  · exact .inr ⟨h, by simp [skipOnKey, hk, skipIf_eq]⟩

/-- The least key down (R213): none pressed, or the least that is. -/
theorem State.leastKey_cases (s : State) :
    ((∀ k : Fin 16, s.keys[k] = false) ∧ s.leastKey = none) ∨
    ∃ k : Fin 16, s.keys[k] = true ∧ (∀ j : Fin 16, j < k → s.keys[j] = false) ∧
      s.leastKey = some k := by
  cases h : s.leastKey with
  | none =>
    refine .inl ⟨fun k => ?_, rfl⟩
    have := List.find?_eq_none.1 h k (List.mem_finRange k)
    simpa using this
  | some k =>
    obtain ⟨hk, as, bs, hl, hn⟩ := List.find?_eq_some_iff_append.1 h
    refine .inr ⟨k, by simpa using hk, fun j hj => ?_, rfl⟩
    have hp : (as ++ k :: bs).Pairwise (· < ·) := hl ▸ List.pairwise_lt_finRange 16
    have hm : j ∈ as ++ k :: bs := hl ▸ List.mem_finRange j
    have hja : j ∈ as := by
      rcases List.mem_append.1 hm with h1 | h1
      · exact h1
      · rcases List.mem_cons.1 h1 with rfl | h1
        · exact absurd hj (lt_irrefl j)
        · have := (List.pairwise_cons.1 (List.pairwise_append.1 hp).2.1).1 j h1
          exact absurd (lt_trans hj this) (lt_irrefl j)
    simpa using hn j hja

@[simp] theorem State.setFlagged_eq (s : State) (f : Bool) (x : Reg) (r : Byte) :
    s.setFlagged f x r = (s.setV vf (flagByte f)).setV x r := rfl

/-- A register write, read back (R12). -/
theorem State.setV_get (s : State) (x r : Reg) (b : Byte) :
    (s.setV x b).v[r] = if r = x then b else s.v[r] := by
  by_cases h : r = x
  · subst h
    simp
  · have h1 : x.val ≠ r.val := fun e => h (Fin.ext e.symm)
    simp [h, h1]

/-- The registers `Fx65` leaves (R175). -/
theorem State.regsLoaded_get (s : State) (x r : Reg) :
    (s.regsLoaded x)[r] = if r ≤ x then s.mem.read (s.idx.toNat + r.val) else s.v[r] := by
  simp only [regsLoaded, Fin.getElem_fin, Vector.getElem_ofFn, reg, dataAddr]
  rfl

/-- The bytes `Fx55` stores (R174): `x + 1` of them. -/
theorem State.regsUpTo_length (s : State) (x : Reg) : (s.regsUpTo x).length = x.val + 1 := by
  simp only [regsUpTo, List.length_take, Vector.length_toList]
  omega

/-- Byte `r` that `Fx55` stores is `V[r]` (R174). -/
theorem State.regsUpTo_getD (s : State) (x r : Reg) (d : Byte) (h : r ≤ x) :
    (s.regsUpTo x).getD r.val d = s.v[r] := by
  have h1 : r.val < x.val + 1 := Nat.lt_succ_of_le (Fin.le_def.1 h)
  simp [regsUpTo, List.getD_eq_getElem?_getD, h1]

theorem bcdDigits_length (v : Byte) : (bcdDigits v).length = 3 := rfl

end Sys2Proof.Machine
end

