-- ==== Sys2Proof/Laws/Display.lean ====
section
/-! SUPPORT. What the drawing loop of R193 does to one pixel and to the collision flag. No pixel is
touched twice (R193), so the loop XORs the pixels the sprite covers. -/

namespace Sys2Proof.Machine

/-- A pixel write, read back (R33). -/
theorem Display.pixel_setPixel (d : Display) (r r' : Fin 32) (c c' : Fin 64) (b : Bool) :
    (d.setPixel r c b).pixel r' c' = if r' = r ∧ c' = c then b else d.pixel r' c' := by
  simp only [setPixel, pixel, Fin.getElem_fin, Vector.getElem_set]
  by_cases hr : r' = r
  · subst hr
    by_cases hc : c' = c
    · subst hc
      simp
    · have h1 : c.val ≠ c'.val := fun e => hc (Fin.ext e.symm)
      simp [hc, h1]
  · have h1 : r.val ≠ r'.val := fun e => hr (Fin.ext e.symm)
    simp [hr, h1]

/-- The blank display (R192). -/
theorem blankDisplay_pixel (r : Fin 32) (c : Fin 64) : Display.pixel blankDisplay r c = false := by
  simp [blankDisplay, Display.pixel]

theorem wrapCol_inj {a i j : Nat} (hi : i < 8) (hj : j < 8)
    (h : wrapCol (a + i) = wrapCol (a + j)) : i = j := by
  have h1 : (a + i) % 64 = (a + j) % 64 := congrArg Fin.val h
  omega

theorem wrapRow_inj {a i j : Nat} (hi : i < 16) (hj : j < 16)
    (h : wrapRow (a + i) = wrapRow (a + j)) : i = j := by
  have h1 : (a + i) % 32 = (a + j) % 32 := congrArg Fin.val h
  omega

/-- Column `c` lies under a set bit among the first `k` of a sprite row at column `cx`. -/
def underRow (byte : Byte) (cx k : Nat) (c : Fin 64) : Prop :=
  ∃ j, j < k ∧ spriteBit byte j = true ∧ c = wrapCol (cx + j)

/-- Pixel `(r, c)` lies under a set bit of the first `n` sprite rows at `(cy, cx)`. -/
def underSprite (m : Memory) (base n cx cy : Nat) (r : Fin 32) (c : Fin 64) : Prop :=
  ∃ i, i < n ∧ r = wrapRow (cy + i) ∧ underRow (m.read (base + i)) cx 8 c

theorem underRow_succ (byte : Byte) (cx k : Nat) (c : Fin 64) :
    underRow byte cx (k + 1) c ↔
      underRow byte cx k c ∨ (spriteBit byte k = true ∧ c = wrapCol (cx + k)) := by
  constructor
  · rintro ⟨j, hj, hb, hc⟩
    rcases Nat.lt_succ_iff_lt_or_eq.1 hj with h | rfl
    · exact .inl ⟨j, h, hb, hc⟩
    · exact .inr ⟨hb, hc⟩
  · rintro (⟨j, hj, hb, hc⟩ | ⟨hb, hc⟩)
    · exact ⟨j, Nat.lt_succ_of_lt hj, hb, hc⟩
    · exact ⟨k, Nat.lt_succ_self k, hb, hc⟩

theorem underSprite_succ (m : Memory) (base n cx cy : Nat) (r : Fin 32) (c : Fin 64) :
    underSprite m base (n + 1) cx cy r c ↔
      underSprite m base n cx cy r c ∨
        (r = wrapRow (cy + n) ∧ underRow (m.read (base + n)) cx 8 c) := by
  constructor
  · rintro ⟨i, hi, hr, hc⟩
    rcases Nat.lt_succ_iff_lt_or_eq.1 hi with h | rfl
    · exact .inl ⟨i, h, hr, hc⟩
    · exact .inr ⟨hr, hc⟩
  · rintro (⟨i, hi, hr, hc⟩ | ⟨hr, hc⟩)
    · exact ⟨i, Nat.lt_succ_of_lt hi, hr, hc⟩
    · exact ⟨n, Nat.lt_succ_self n, hr, hc⟩

/-- One bit of the sprite: its pixel flips, and a lit one counts as a hit (R193). -/
theorem drawBit_pixel (bit : Bool) (r r' : Fin 32) (c c' : Fin 64) (acc : Display × Bool) :
    (drawBit bit r c acc).1.pixel r' c' =
      (acc.1.pixel r' c' ^^ (bit && decide (r' = r ∧ c' = c))) := by
  cases bit
  · simp [drawBit]
  · by_cases h : r' = r ∧ c' = c
    · obtain ⟨rfl, rfl⟩ := h
      simp [drawBit, Display.pixel_setPixel]
    · simp [drawBit, Display.pixel_setPixel, h]

theorem drawBit_hit (bit : Bool) (r : Fin 32) (c : Fin 64) (acc : Display × Bool) :
    (drawBit bit r c acc).2 = (acc.2 || (bit && acc.1.pixel r c)) := by
  cases bit <;> simp [drawBit]

/-- The loop over the first `k` columns of a sprite row. -/
theorem drawRow_loop (byte : Byte) (row cx k : Nat) (hk : k ≤ 8) (acc : Display × Bool) :
    let res := (List.range k).foldl
      (fun acc c => drawBit (spriteBit byte c) (wrapRow row) (wrapCol (cx + c)) acc) acc
    (∀ r c, (r = wrapRow row ∧ underRow byte cx k c → res.1.pixel r c = !acc.1.pixel r c) ∧
      (¬ (r = wrapRow row ∧ underRow byte cx k c) → res.1.pixel r c = acc.1.pixel r c)) ∧
    (res.2 = true ↔
      acc.2 = true ∨ ∃ c, underRow byte cx k c ∧ acc.1.pixel (wrapRow row) c = true) := by
  induction k with
  | zero => simp [underRow]
  | succ k ih =>
    have ih := ih (by omega)
    simp only [List.range_succ, List.foldl_append, List.foldl_cons, List.foldl_nil]
    generalize (List.range k).foldl
      (fun acc c => drawBit (spriteBit byte c) (wrapRow row) (wrapCol (cx + c)) acc) acc = mid at ih
    obtain ⟨hp, hh⟩ := ih
    have hfresh : ¬ underRow byte cx k (wrapCol (cx + k)) := by
      rintro ⟨j, hj, -, hc⟩
      have := wrapCol_inj (by omega) (by omega) hc
      omega
    have hmid : mid.1.pixel (wrapRow row) (wrapCol (cx + k))
        = acc.1.pixel (wrapRow row) (wrapCol (cx + k)) :=
      (hp _ _).2 fun h => hfresh h.2
    refine ⟨fun r c => ?_, ?_⟩
    · rw [drawBit_pixel, underRow_succ]
      by_cases hr : r = wrapRow row
      · by_cases hc : c = wrapCol (cx + k)
        · subst hc hr
          cases hb : spriteBit byte k <;> simp [hfresh, hmid]
        · by_cases hu : underRow byte cx k c
          · simp [hr, hc, hu, (hp _ _).1 ⟨rfl, hu⟩]
          · simp [hr, hc, hu, (hp (wrapRow row) c).2 fun h => hu h.2]
      · simp [hr, (hp r c).2 fun h => hr h.1]
    · rw [drawBit_hit, Bool.or_eq_true, Bool.and_eq_true, hh, hmid]
      constructor
      · rintro ((h | ⟨c, hu, hl⟩) | ⟨hb, hl⟩)
        · exact .inl h
        · exact .inr ⟨c, (underRow_succ ..).2 (.inl hu), hl⟩
        · exact .inr ⟨_, (underRow_succ ..).2 (.inr ⟨hb, rfl⟩), hl⟩
      · rintro (h | ⟨c, hu, hl⟩)
        · exact .inl (.inl h)
        · rcases (underRow_succ ..).1 hu with hu | ⟨hb, rfl⟩
          · exact .inl (.inr ⟨c, hu, hl⟩)
          · exact .inr ⟨hb, hl⟩

/-- The whole loop of R193 for at most 15 rows: the pixels under a set bit flip, the others stay,
and the flag says whether a lit pixel was under a set bit. -/
theorem drawSprite_spec (m : Memory) (base n cx cy : Nat) (hn : n ≤ 15) (d : Display) :
    (∀ r c, (underSprite m base n cx cy r c →
        (drawSprite m base n cx cy d).1.pixel r c = !d.pixel r c) ∧
      (¬ underSprite m base n cx cy r c →
        (drawSprite m base n cx cy d).1.pixel r c = d.pixel r c)) ∧
    ((drawSprite m base n cx cy d).2 = true ↔
      ∃ r c, underSprite m base n cx cy r c ∧ d.pixel r c = true) := by
  unfold drawSprite
  induction n with
  | zero => simp [underSprite]
  | succ n ih =>
    have ih := ih (by omega)
    simp only [List.range_succ, List.foldl_append, List.foldl_cons, List.foldl_nil]
    generalize (List.range n).foldl
      (fun acc r => drawRow (m.read (base + r)) (cy + r) cx acc) (d, false) = mid at ih
    obtain ⟨hp, hh⟩ := ih
    obtain ⟨hp', hh'⟩ := drawRow_loop (m.read (base + n)) (cy + n) cx 8 (Nat.le_refl 8) mid
    have hfresh : ∀ c, ¬ underSprite m base n cx cy (wrapRow (cy + n)) c := by
      rintro c ⟨i, hi, hr, -⟩
      have := wrapRow_inj (by omega) (by omega) hr
      omega
    refine ⟨fun r c => ?_, ?_⟩
    · rw [drawRow, underSprite_succ]
      by_cases hu : r = wrapRow (cy + n) ∧ underRow (m.read (base + n)) cx 8 c
      · have h1 : mid.1.pixel r c = d.pixel r c := (hp r c).2 (hu.1 ▸ hfresh c)
        refine ⟨fun _ => ?_, fun h => absurd (Or.inr hu) h⟩
        rw [(hp' r c).1 hu, h1]
      · refine ⟨fun h => ?_, fun h => ?_⟩
        · rw [(hp' r c).2 hu, (hp r c).1 (h.resolve_right hu)]
        · rw [(hp' r c).2 hu, (hp r c).2 fun h1 => h (.inl h1)]
    · rw [drawRow, hh', hh]
      constructor
      · rintro (⟨r, c, hu, hl⟩ | ⟨c, hu, hl⟩)
        · exact ⟨r, c, (underSprite_succ ..).2 (.inl hu), hl⟩
        · refine ⟨_, c, (underSprite_succ ..).2 (.inr ⟨rfl, hu⟩), ?_⟩
          rwa [(hp _ c).2 (hfresh c)] at hl
      · rintro ⟨r, c, hu, hl⟩
        rcases (underSprite_succ ..).1 hu with hu' | ⟨rfl, hu'⟩
        · exact .inl ⟨r, c, hu', hl⟩
        · refine .inr ⟨c, hu', ?_⟩
          rwa [(hp _ c).2 (hfresh c)]

end Sys2Proof.Machine
end

