-- ==== Sys2Proof/Laws/Engine.lean ====
section
/-! SUPPORT. What the engine and one step can do (R90, R235, R40), once; the provers cite these
instead of unfolding them. -/

namespace Sys2Proof.Machine

/-- Halted, a `Cycle` does nothing (R234). -/
theorem cycle_halted {s : State} (r : Option Byte) (h : s.halted = true) : cycle r s = .next s := by
  simp [cycle, h]

/-- `pc` beyond 0xFFE: the fetch fault (R91). -/
theorem cycle_noFetch {s : State} (r : Option Byte) (h : s.halted = false)
    (hp : 0xFFE < s.pc.toNat) :
    cycle r s = .next ((s.beginCycle r).enterFault 0 .fetchOutOfBounds s.pc) := by
  have hf : s.fetch = none := by simp [State.fetch, hp]
  simp [cycle, h, hf, raise_eq]

/-- A fetched word that decodes is executed (R90). -/
theorem cycle_exec {s : State} (r : Option Byte) (h : s.halted = false) {op : Word}
    (hf : s.fetch = some op) {i : Instr} (hd : decode op = .ok i) :
    cycle r s = exec i (s.beginCycle r) := by
  simp [cycle, h, hf, runWord, hd]

/-- A fetched word that does not decode faults (R88). -/
theorem cycle_illegal {s : State} (r : Option Byte) (h : s.halted = false) {op : Word}
    (hf : s.fetch = some op) {e : Illegal} (hd : decode op = .error e) :
    cycle r s = .next ((s.beginCycle r).enterFault op .illegalInstruction 0) := by
  simp [cycle, h, hf, runWord, hd, raise_eq]

/-- The four things a `Cycle` can do, in the order of R235. -/
theorem cycle_cases (r : Option Byte) (s : State) :
    (s.halted = true ∧ cycle r s = .next s) ∨
    (s.halted = false ∧ 0xFFE < s.pc.toNat ∧
      cycle r s = .next ((s.beginCycle r).enterFault 0 .fetchOutOfBounds s.pc)) ∨
    (s.halted = false ∧ s.pc.toNat ≤ 0xFFE ∧ ∃ op, s.fetch = some op ∧
      ((∃ e, decode op = .error e ∧
        cycle r s = .next ((s.beginCycle r).enterFault op .illegalInstruction 0)) ∨
       ∃ i, decode op = .ok i ∧ cycle r s = exec i (s.beginCycle r))) := by
  cases h : s.halted with
  | true => exact .inl ⟨rfl, cycle_halted r h⟩
  | false =>
    rcases s.fetch_cases with ⟨hp, -⟩ | ⟨hp, hf⟩
    · exact .inr (.inl ⟨rfl, hp, cycle_noFetch r h hp⟩)
    · refine .inr (.inr ⟨rfl, hp, _, hf, ?_⟩)
      cases hd : decode (wordOfBytes (s.mem.read s.pc.toNat) (s.mem.read (s.pc.toNat + 1))) with
      | error e => exact .inl ⟨e, rfl, cycle_illegal r h hf hd⟩
      | ok i => exact .inr ⟨i, rfl, cycle_exec r h hf hd⟩

/-- One step: a `Cycle` with a free byte where nothing is scheduled, else the oldest event. -/
theorem step_cases (s : State) :
    (s.events = [] ∧ step s = cycle none s) ∨
    ∃ e es, s.events = e :: es ∧ step s = deliver e (s.setEvents es) := by
  cases h : s.events with
  | nil => exact .inl ⟨rfl, by simp [step, nextEvent, h]⟩
  | cons e es => exact .inr ⟨e, es, rfl, by simp [step, nextEvent, h]⟩

/-- `LoadRom`: admitted or nothing (R45). -/
theorem State.onLoadRom_cases (s : State) (image : List Byte) :
    (image.length ≤ Config.maxRom ∧ s.cycled = false ∧
      s.onLoadRom image = s.setMem (s.mem.writeBytes Config.romBase image)) ∨
    (¬ (image.length ≤ Config.maxRom ∧ s.cycled = false) ∧ s.onLoadRom image = s) := by
  by_cases h : image.length ≤ Config.maxRom ∧ s.cycled = false
  · exact .inl ⟨h.1, h.2, by simp [onLoadRom, admitsRom, romFits, h.1, h.2]⟩
  · refine .inr ⟨h, ?_⟩
    have : s.admitsRom image = false := by
      simp only [admitsRom, romFits, Bool.and_eq_false_iff, decide_eq_false_iff_not,
        Bool.not_eq_false']
      by_contra hc
      push Not at hc
      exact h ⟨hc.1, by simpa using hc.2⟩
    simp [onLoadRom, this]

end Sys2Proof.Machine
end

