-- ==== Sys2Proof/Laws/PerInstr.lean ====
section
/-! SUPPORT. Per instruction: the word an instruction encodes to lies in its own row of the opcode
map (R86), so it is a legal word (R89). One lemma per constructor. -/

namespace Sys2Proof

/-- The category mask keeps the category (R86). -/
theorem wordNNN_mask (c : Nibble) (a : Addr) : wordNNN c a &&& 0xF000#16 = wordNNN c 0 := by
  refine BitVec.eq_of_getLsbD_eq fun i hi => ?_
  simp only [BitVec.getLsbD_and, getLsbD_wordNNN]
  interval_cases i <;> simp

/-- The mask of format `x` keeps the category and the low byte (R86). -/
theorem wordXKK_mask (c : Nibble) (x : Reg) (kk : Byte) :
    wordXKK c x kk &&& 0xF0FF#16 = wordXKK c 0 kk := by
  refine BitVec.eq_of_getLsbD_eq fun i hi => ?_
  simp only [BitVec.getLsbD_and, wordXKK, getLsbD_wordNNN, getLsbD_lowXKK]
  interval_cases i <;> simp [regBits]

/-- The mask of format `xy` keeps the category and the low nibble (R86). -/
theorem wordXYN_mask (c : Nibble) (x y : Reg) (n : Nibble) :
    wordXYN c x y n &&& 0xF00F#16 = wordXYN c 0 0 n := by
  refine BitVec.eq_of_getLsbD_eq fun i hi => ?_
  simp only [BitVec.getLsbD_and, wordXYN, wordXKK, getLsbD_wordNNN, getLsbD_lowXKK, getLsbD_lowYN]
  interval_cases i <;> simp [regBits]

/-- The word of an instruction lies in its own row (R86). -/
def Laws.Encoding.Statement (i : Instr) : Prop := i.row.selects (encode i) = true

/-- A word whose masked value is the row's lies in the row. -/
theorem selects_of_masked {r : Row} {op : Word} (h : op &&& r.mask = r.value) :
    r.selects op = true := by
  simp [Row.selects, h]

theorem Laws.Encoding.cls : Laws.Encoding.Statement .cls :=
  selects_of_masked (by decide)

theorem Laws.Encoding.ret : Laws.Encoding.Statement .ret :=
  selects_of_masked (by decide)

theorem Laws.Encoding.jp (nnn : Addr) : Laws.Encoding.Statement (.jp nnn) :=
  selects_of_masked (wordNNN_mask _ nnn)

theorem Laws.Encoding.call (nnn : Addr) : Laws.Encoding.Statement (.call nnn) :=
  selects_of_masked (wordNNN_mask _ nnn)

theorem Laws.Encoding.seImm (x : Reg) (kk : Byte) : Laws.Encoding.Statement (.seImm x kk) :=
  selects_of_masked (wordNNN_mask _ (lowXKK x kk))

theorem Laws.Encoding.sneImm (x : Reg) (kk : Byte) : Laws.Encoding.Statement (.sneImm x kk) :=
  selects_of_masked (wordNNN_mask _ (lowXKK x kk))

theorem Laws.Encoding.seReg (x : Reg) (y : Reg) : Laws.Encoding.Statement (.seReg x y) :=
  selects_of_masked (wordXYN_mask _ x y _)

theorem Laws.Encoding.ldImm (x : Reg) (kk : Byte) : Laws.Encoding.Statement (.ldImm x kk) :=
  selects_of_masked (wordNNN_mask _ (lowXKK x kk))

theorem Laws.Encoding.addImm (x : Reg) (kk : Byte) : Laws.Encoding.Statement (.addImm x kk) :=
  selects_of_masked (wordNNN_mask _ (lowXKK x kk))

theorem Laws.Encoding.ldReg (x : Reg) (y : Reg) : Laws.Encoding.Statement (.ldReg x y) :=
  selects_of_masked (wordXYN_mask _ x y _)

theorem Laws.Encoding.orReg (x : Reg) (y : Reg) : Laws.Encoding.Statement (.orReg x y) :=
  selects_of_masked (wordXYN_mask _ x y _)

theorem Laws.Encoding.andReg (x : Reg) (y : Reg) : Laws.Encoding.Statement (.andReg x y) :=
  selects_of_masked (wordXYN_mask _ x y _)

theorem Laws.Encoding.xorReg (x : Reg) (y : Reg) : Laws.Encoding.Statement (.xorReg x y) :=
  selects_of_masked (wordXYN_mask _ x y _)

theorem Laws.Encoding.addReg (x : Reg) (y : Reg) : Laws.Encoding.Statement (.addReg x y) :=
  selects_of_masked (wordXYN_mask _ x y _)

theorem Laws.Encoding.sub (x : Reg) (y : Reg) : Laws.Encoding.Statement (.sub x y) :=
  selects_of_masked (wordXYN_mask _ x y _)

theorem Laws.Encoding.shr (x : Reg) (y : Reg) : Laws.Encoding.Statement (.shr x y) :=
  selects_of_masked (wordXYN_mask _ x y _)

theorem Laws.Encoding.subn (x : Reg) (y : Reg) : Laws.Encoding.Statement (.subn x y) :=
  selects_of_masked (wordXYN_mask _ x y _)

theorem Laws.Encoding.shl (x : Reg) (y : Reg) : Laws.Encoding.Statement (.shl x y) :=
  selects_of_masked (wordXYN_mask _ x y _)

theorem Laws.Encoding.sneReg (x : Reg) (y : Reg) : Laws.Encoding.Statement (.sneReg x y) :=
  selects_of_masked (wordXYN_mask _ x y _)

theorem Laws.Encoding.ldI (nnn : Addr) : Laws.Encoding.Statement (.ldI nnn) :=
  selects_of_masked (wordNNN_mask _ nnn)

theorem Laws.Encoding.jpV0 (nnn : Addr) : Laws.Encoding.Statement (.jpV0 nnn) :=
  selects_of_masked (wordNNN_mask _ nnn)

theorem Laws.Encoding.rnd (x : Reg) (kk : Byte) : Laws.Encoding.Statement (.rnd x kk) :=
  selects_of_masked (wordNNN_mask _ (lowXKK x kk))

theorem Laws.Encoding.drw (x : Reg) (y : Reg) (n : Nibble) : Laws.Encoding.Statement (.drw x y n) :=
  selects_of_masked (wordNNN_mask _ (lowXKK x (lowYN y n)))

theorem Laws.Encoding.skp (x : Reg) : Laws.Encoding.Statement (.skp x) :=
  selects_of_masked (wordXKK_mask _ x _)

theorem Laws.Encoding.sknp (x : Reg) : Laws.Encoding.Statement (.sknp x) :=
  selects_of_masked (wordXKK_mask _ x _)

theorem Laws.Encoding.ldVxDt (x : Reg) : Laws.Encoding.Statement (.ldVxDt x) :=
  selects_of_masked (wordXKK_mask _ x _)

theorem Laws.Encoding.ldVxK (x : Reg) : Laws.Encoding.Statement (.ldVxK x) :=
  selects_of_masked (wordXKK_mask _ x _)

theorem Laws.Encoding.ldDtVx (x : Reg) : Laws.Encoding.Statement (.ldDtVx x) :=
  selects_of_masked (wordXKK_mask _ x _)

theorem Laws.Encoding.ldStVx (x : Reg) : Laws.Encoding.Statement (.ldStVx x) :=
  selects_of_masked (wordXKK_mask _ x _)

theorem Laws.Encoding.addI (x : Reg) : Laws.Encoding.Statement (.addI x) :=
  selects_of_masked (wordXKK_mask _ x _)

theorem Laws.Encoding.ldF (x : Reg) : Laws.Encoding.Statement (.ldF x) :=
  selects_of_masked (wordXKK_mask _ x _)

theorem Laws.Encoding.ldB (x : Reg) : Laws.Encoding.Statement (.ldB x) :=
  selects_of_masked (wordXKK_mask _ x _)

theorem Laws.Encoding.storeRegs (x : Reg) : Laws.Encoding.Statement (.storeRegs x) :=
  selects_of_masked (wordXKK_mask _ x _)

theorem Laws.Encoding.loadRegs (x : Reg) : Laws.Encoding.Statement (.loadRegs x) :=
  selects_of_masked (wordXKK_mask _ x _)

/-- A word in a row of the map is legal (R88, R89). -/
theorem legalWord_of_selects {r : Row} {op : Word} (hr : r ∈ opcodeMap) (h : r.selects op = true) :
    legalWord op = true :=
  List.any_eq_true.2 ⟨r, hr, h⟩

end Sys2Proof
end

