-- ==== Sys2Proof/Laws/Values.lean ====
section
/-! SUPPORT. The values the operand forms, flags and events compute, as naturals (R11), and what the
two register-writing completions leave. -/

namespace Sys2Proof.Machine

@[simp] theorem zextAddr_toNat (n : Addr) : (zextAddr n).toNat = n.toNat := by
  have := n.isLt
  simp only [zextAddr, BitVec.toNat_setWidth]
  omega

@[simp] theorem zextByte_toNat (b : Byte) : (zextByte b).toNat = b.toNat := by
  have := b.isLt
  simp only [zextByte, BitVec.toNat_setWidth]
  omega

/-- `Bnnn` (R130): the sum is not masked and does not wrap. -/
theorem State.computedTarget_toNat (s : State) (n : Addr) :
    (s.computedTarget n).toNat = n.toNat + s.v[(0 : Reg)].toNat := by
  have h1 := n.isLt
  have h2 := (s.v[(0 : Reg)]).isLt
  simp only [computedTarget, reg, BitVec.toNat_add, zextAddr_toNat, zextByte_toNat]
  exact Nat.mod_eq_of_lt (by omega)

/-- `Fx29` (R172): 0x050 to 0x54B. -/
theorem glyphAddr_toNat (a : Byte) : (glyphAddr a).toNat = 0x050 + 5 * a.toNat := by
  have := a.isLt
  simp only [glyphAddr, fontBase, BitVec.toNat_ofNat]
  omega

theorem byte_sub_toNat (a b : Byte) : (a - b).toNat = (a.toNat + 256 - b.toNat) % 256 := by
  rw [BitVec.toNat_sub]
  omega

theorem byte_shr_toNat (a : Byte) : (a >>> 1).toNat = a.toNat / 2 := by
  simp [Nat.shiftRight_eq_div_pow]

theorem byte_shl_toNat (a : Byte) : (a <<< 1).toNat = a.toNat * 2 % 256 := by
  simp [Nat.shiftLeft_eq]

theorem flagByte_toNat (f : Bool) : (flagByte f).toNat = f.toNat := by
  cases f <;> rfl

theorem lowBitFlag_eq (a : Byte) : lowBitFlag a = decide (a.toNat % 2 = 1) := by
  simp only [lowBitFlag, BitVec.getLsbD, Nat.testBit, Nat.shiftRight_zero, Nat.one_and_eq_mod_two]
  rcases Nat.mod_two_eq_zero_or_one a.toNat with h | h <;> simp [h]

theorem highBitFlag_eq (a : Byte) : highBitFlag a = decide (128 ≤ a.toNat) := by
  have h := a.isLt
  have hd : a.toNat / 128 = if 128 ≤ a.toNat then 1 else 0 := by
    split <;> omega
  simp only [highBitFlag, BitVec.getLsbD, Nat.testBit, Nat.shiftRight_eq_div_pow,
    Nat.one_and_eq_mod_two, Nat.reducePow, hd]
  split <;> simp [*]

theorem decTimer_toNat (t : Byte) : (decTimer t).toNat = t.toNat - 1 := by
  unfold decTimer
  split
  · simp [*]
  · bv_omega

/-- A completion without a flag: one register written (R140 to R145, R151, R212). -/
theorem writeReg_spec (x : Reg) (b : Byte) (s : State) :
    writeReg x b s = .next (s.commit.setV x b) ∧
      (s.commit.setV x b).v[x] = b ∧ ∀ r : Reg, r ≠ x → (s.commit.setV x b).v[r] = s.v[r] := by
  refine ⟨rfl, ?_, fun r h => ?_⟩
  · rw [State.setV_get, if_pos rfl]
  · rw [State.setV_get, if_neg h, State.commit_v]

/-- A completion with a flag: the flag, then the result, which stays where `x = 0xF` (R96). -/
theorem writeFlagged_spec (f : Bool) (x : Reg) (b : Byte) (s : State) :
    writeFlagged f x b s = .next (s.commit.setFlagged f x b) ∧
      (s.commit.setFlagged f x b).v[x] = b ∧
      (x ≠ 15 → (s.commit.setFlagged f x b).v[(15 : Reg)] = flagByte f) ∧
      ∀ r : Reg, r ≠ x → r ≠ 15 → (s.commit.setFlagged f x b).v[r] = s.v[r] := by
  refine ⟨rfl, ?_, fun h => ?_, fun r h h1 => ?_⟩
  · rw [State.setFlagged_eq, State.setV_get, if_pos rfl]
  · rw [State.setFlagged_eq, State.setV_get, if_neg (Ne.symm h), State.setV_get,
      if_pos (show (15 : Reg) = vf from rfl)]
  · rw [State.setFlagged_eq, State.setV_get, if_neg h, State.setV_get,
      if_neg (show r ≠ vf from h1), State.commit_v]

end Sys2Proof.Machine
end

