-- ==== Sys2Proof/Tests/Slice0.lean ====
section
/-! SUPPORT. Tests: the checks of WellFormed and what they refuse, words written out from the
patterns of R86, the vectors of spec/95_test_vectors.md (their ids in the comments), and a witness for every
statement that has hypotheses. -/

namespace Sys2Proof.Tests

open Sys2Proof.Machine

/-! ## WellFormed: each check and a term it refuses (R87, R88; vector X4) -/

theorem test_wellFormed_category0 : legalWord 0x00E0 = true ∧ legalWord 0x01EE = false := by decide
theorem test_wellFormed_category0_sys : legalWord 0x0123 = false ∧ legalWord 0x0000 = false := by
  decide
theorem test_wellFormed_category5 : legalWord 0x5120 = true ∧ legalWord 0x5121 = false := by decide
theorem test_wellFormed_category9 : legalWord 0x9120 = true ∧ legalWord 0x9121 = false := by decide
theorem test_wellFormed_category8 : legalWord 0x800E = true ∧ legalWord 0x8008 = false := by decide
theorem test_wellFormed_categoryE : legalWord 0xE09E = true ∧ legalWord 0xE000 = false := by decide
theorem test_wellFormed_categoryF : legalWord 0xF065 = true ∧ legalWord 0xF0FF = false := by decide
theorem test_wellFormed_rom (n : Nat) :
    romFits (List.replicate n 0) = decide (n ≤ 0xE00) := by
  rw [romFits, List.length_replicate, Config.maxRom]

/-! ## Decode: one word per constructor, from the pattern column of R86 -/

theorem test_decode_display : decode 0x00E0 = .ok .cls ∧ decode 0xD12F = .ok (.drw 1 2 15) := by
  decide
theorem test_decode_control : decode 0x00EE = .ok .ret ∧ decode 0x1ABC = .ok (.jp 0xABC) ∧
    decode 0x2300 = .ok (.call 0x300) ∧ decode 0xB300 = .ok (.jpV0 0x300) := by decide
theorem test_decode_skips : decode 0x3A42 = .ok (.seImm 10 0x42) ∧
    decode 0x4A42 = .ok (.sneImm 10 0x42) ∧ decode 0x5120 = .ok (.seReg 1 2) ∧
    decode 0x9120 = .ok (.sneReg 1 2) := by decide
theorem test_decode_loads : decode 0x6F42 = .ok (.ldImm 15 0x42) ∧
    decode 0x7202 = .ok (.addImm 2 0x02) ∧ decode 0xC30F = .ok (.rnd 3 0x0F) := by decide
theorem test_decode_alu : decode 0x8010 = .ok (.ldReg 0 1) ∧ decode 0x8011 = .ok (.orReg 0 1) ∧
    decode 0x8012 = .ok (.andReg 0 1) ∧ decode 0x8013 = .ok (.xorReg 0 1) ∧
    decode 0x8F14 = .ok (.addReg 15 1) := by decide
theorem test_decode_alu_flags : decode 0x80F5 = .ok (.sub 0 15) ∧ decode 0x8126 = .ok (.shr 1 2) ∧
    decode 0x8127 = .ok (.subn 1 2) ∧ decode 0x812E = .ok (.shl 1 2) := by decide
theorem test_decode_index : decode 0xAFFF = .ok (.ldI 0xFFF) ∧ decode 0xF21E = .ok (.addI 2) ∧
    decode 0xF029 = .ok (.ldF 0) ∧ decode 0xFE33 = .ok (.ldB 14) ∧
    decode 0xFF55 = .ok (.storeRegs 15) ∧ decode 0xF265 = .ok (.loadRegs 2) := by decide
theorem test_decode_keys_timers : decode 0xE59E = .ok (.skp 5) ∧ decode 0xE5A1 = .ok (.sknp 5) ∧
    decode 0xF307 = .ok (.ldVxDt 3) ∧ decode 0xF30A = .ok (.ldVxK 3) ∧
    decode 0xF315 = .ok (.ldDtVx 3) ∧ decode 0xF418 = .ok (.ldStVx 4) := by decide
theorem test_decode_refuses_by_name : decode 0x0123 = .error .category0 ∧
    decode 0x5121 = .error .category5 ∧ decode 0x8008 = .error .category8 ∧
    decode 0x9121 = .error .category9 ∧ decode 0xE000 = .error .categoryE ∧
    decode 0xF000 = .error .categoryF := by decide
theorem test_decode_bytes_big_endian :
    decodeBytes [0x12, 0x34, 0x56] = .ok (.jp 0x234, [0x56]) := by decide
theorem test_decode_truncated : decodeBytes [0x12] = .error .truncated := by decide
theorem test_decodeTableWord : decodeTableWord 16 0x2ABC = some (.call 0xABC) := by decide

/-! ## One step: the vectors of spec/95_test_vectors.md -/

/-- The registers named, at the values given; everything else at reset. -/
def withV (l : List (Reg × Byte)) : State := l.foldl (fun s p => s.setV p.1 p.2) State.reset

/-- The keys named, down; everything else as in `s`. -/
def withKeys (s : State) (k : Word) : State := s.onSetKeys k

/-- One step with the word under test where it is fetched. -/
def run (s : State) (w : Nat) : Option State :=
  match step (s.withFetchWord 16 w) with
  | .next t => some t
  | _ => none

/-- What a fault row of the vectors shows. -/
def faultOf (s : State) : Bool × FaultCause × Word × Word × Word :=
  (s.halted, s.faultCause, s.faultOpcode, s.faultAddr, s.pc)

-- C1, C3
theorem test_ret : (run { State.reset with sp := 1, stack := State.reset.stack.set 0 0x302 }
    0x00EE).map (fun t => (t.pc, t.sp.val)) = some (0x302, 0) := by decide
theorem test_ret_underflow : (run State.reset 0x00EE).map faultOf =
    some (true, .stackUnderflow, 0x00EE, 0, 0x200) := by decide
-- C4
theorem test_jp : (run State.reset 0x1ABC).map (·.pc) = some 0xABC := by decide
-- C6, C7
theorem test_call : (run { State.reset with sp := 15 } 0x2ABC).map
    (fun t => (t.pc, t.sp.val, t.stack[15])) = some (0xABC, 16, 0x202) := by decide
theorem test_call_overflow : (run { State.reset with sp := 16 } 0x2ABC).map
    (fun t => (faultOf t, t.sp.val)) =
      some ((true, .stackOverflow, 0x2ABC, 0, 0x200), 16) := by decide
-- C8, C9
theorem test_seImm : (run (withV [(10, 0x42)]) 0x3A42).map (·.pc) = some 0x204 := by decide
theorem test_seImm_no : (run (withV [(10, 0x43)]) 0x3A42).map (·.pc) = some 0x202 := by decide
-- C10, C11
theorem test_sneImm_no : (run (withV [(10, 0x42)]) 0x4A42).map (·.pc) = some 0x202 := by decide
theorem test_sneImm : (run (withV [(10, 0x43)]) 0x4A42).map (·.pc) = some 0x204 := by decide
-- C12, C13
theorem test_seReg : (run (withV [(1, 7), (2, 7)]) 0x5120).map (·.pc) = some 0x204 := by decide
theorem test_seReg_no : (run (withV [(1, 7), (2, 8)]) 0x5120).map (·.pc) = some 0x202 := by decide
-- C14, C15
theorem test_sneReg_no : (run (withV [(1, 7), (2, 7)]) 0x9120).map (·.pc) = some 0x202 := by decide
theorem test_sneReg : (run (withV [(1, 7), (2, 8)]) 0x9120).map (·.pc) = some 0x204 := by decide
-- C17: the last fetchable address
theorem test_skip_at_top : (run { State.reset with pc := 0xFFE } 0x3000).map (·.pc) =
    some 0x1002 := by decide
-- C19, C20
theorem test_jpV0 : (run (withV [(0, 0xFF)]) 0xBFFF).map (·.pc) = some 0x10FE := by decide
theorem test_jpV0_odd : (run (withV [(0, 0xFF)]) 0xB000).map (·.pc) = some 0x0FF := by decide
-- V1
theorem test_ldImm : (run State.reset 0x6F42).map (·.v[15]) = some 0x42 := by decide
-- V2, V3
theorem test_addImm : (run (withV [(2, 0xFF)]) 0x7202).map (fun t => (t.v[2], t.v[15])) =
    some (0x01, 0) := by decide
theorem test_addImm_vf : (run (withV [(15, 0xFF)]) 0x7F01).map (·.v[15]) = some 0 := by decide
-- V26 to V30
theorem test_ldReg : (run (withV [(1, 0x33)]) 0x8010).map (·.v[0]) = some 0x33 := by decide
theorem test_orReg : (run (withV [(0, 0x0F), (1, 0xF0), (15, 1)]) 0x8011).map
    (fun t => (t.v[0], t.v[15])) = some (0xFF, 1) := by decide
theorem test_andReg : (run (withV [(0, 0x3C), (1, 0x0F)]) 0x8012).map (·.v[0]) = some 0x0C := by
  decide
theorem test_xorReg : (run (withV [(0, 0x3C), (1, 0x0F)]) 0x8013).map (·.v[0]) = some 0x33 := by
  decide
theorem test_xorReg_self : (run (withV [(0, 0x3C)]) 0x8003).map (·.v[0]) = some 0 := by decide
-- V7, V8
theorem test_addReg_vf : (run (withV [(15, 0x10), (1, 0xF5)]) 0x8F14).map (·.v[15]) =
    some 0x05 := by decide
theorem test_addReg_oldVF : (run (withV [(0, 0x01), (15, 0xFF)]) 0x80F4).map
    (fun t => (t.v[0], t.v[15])) = some (0, 1) := by decide
-- V10, V13
theorem test_sub_equal : (run (withV [(0, 3), (1, 3), (15, 1)]) 0x8015).map
    (fun t => (t.v[0], t.v[15])) = some (0, 0) := by decide
theorem test_sub_vf : (run (withV [(15, 5), (1, 3)]) 0x8F15).map (·.v[15]) = some 2 := by decide
-- V15, V16
theorem test_shr : (run (withV [(0, 0x01)]) 0x8006).map (fun t => (t.v[0], t.v[15])) =
    some (0, 1) := by decide
theorem test_shr_ignores_y : (run (withV [(0, 0x80), (1, 0xFF)]) 0x8016).map
    (fun t => (t.v[0], t.v[15])) = some (0x40, 0) := by decide
-- V18, V20
theorem test_subn : (run (withV [(0, 3), (1, 5)]) 0x8017).map (fun t => (t.v[0], t.v[15])) =
    some (2, 1) := by decide
theorem test_subn_borrow : (run (withV [(0, 1), (1, 0)]) 0x8017).map
    (fun t => (t.v[0], t.v[15])) = some (0xFF, 0) := by decide
-- V22, V24
theorem test_shl : (run (withV [(0, 0x81)]) 0x800E).map (fun t => (t.v[0], t.v[15])) =
    some (2, 1) := by decide
theorem test_shl_ignores_y : (run (withV [(0, 0x01), (1, 0xFF)]) 0x801E).map
    (fun t => (t.v[0], t.v[15])) = some (2, 0) := by decide

/-- `s` with the word at 0x200, where `pc` is after reset. -/
def at200 (s : State) (hi lo : Byte) : State := s.setMem (s.mem.writeBytes 0x200 [hi, lo])

/-- A `Cycle` with the word at 0x200 given. -/
def cycleWith (rnd hi lo : Byte) : Option State :=
  match deliver (.cycle rnd) (at200 State.reset hi lo) with
  | .next t => some t
  | _ => none

-- V31
theorem test_rnd : (cycleWith 0xA7 0xC3 0x0F).map (·.v[3]) = some 0x07 := by decide
-- M2
theorem test_ldI : (run State.reset 0xAFFF).map (·.idx) = some 0xFFF := by decide
-- M4, M5
theorem test_addI_wraps : (run { withV [(2, 2)] with idx := 0xFFFF } 0xF21E).map (·.idx) =
    some 1 := by decide
theorem test_addI_noFlag : (run { withV [(15, 0x80)] with idx := 0x100 } 0xFF1E).map
    (fun t => (t.idx, t.v[15])) = some (0x180, 0x80) := by decide
-- M6
theorem test_ldF : (run (withV [(0, 0x0F)]) 0xF029).map (·.idx) = some 0x09B := by decide
theorem test_ldF_notMasked : (run (withV [(0, 0xFF)]) 0xF029).map (·.idx) = some 0x54B := by decide
-- M8, M8b
theorem test_ldB : (run { withV [(0, 255)] with idx := 0x300 } 0xF033).map
    (fun t => [t.mem.read 0x300, t.mem.read 0x301, t.mem.read 0x302]) = some [2, 5, 5] := by decide
theorem test_ldB_fault : (run { withV [(0, 7)] with idx := 0xFFE } 0xF033).map
    (fun t => (faultOf t, t.mem.read 0xFFE)) =
      some ((true, .dataOutOfBounds, 0xF033, 0x1000, 0x200), 0) := by decide
-- M10, M11
theorem test_storeRegs_top : (run { withV [(0, 9)] with idx := 0xFFF } 0xF055).map
    (fun t => (t.mem.read 0xFFF, t.idx)) = some (9, 0xFFF) := by decide
theorem test_storeRegs_fault : (run { withV [(0, 9)] with idx := 0xFFF } 0xF155).map
    (fun t => (faultOf t, t.mem.read 0xFFF)) =
      some ((true, .dataOutOfBounds, 0xF155, 0x1000, 0x200), 0) := by decide
-- M12 in the reserved area (M16), M15
theorem test_loadRegs : (run { State.reset with idx := 0x050 } 0xF265).map
    (fun t => (t.v[0], t.v[1], t.v[3], t.idx)) = some (0xF0, 0x90, 0, 0x050) := by decide
theorem test_loadRegs_fault : (run { State.reset with idx := 0xFFFE } 0xF065).map faultOf =
    some (true, .dataOutOfBounds, 0xF065, 0xFFFE, 0x200) := by decide
-- G1
theorem test_cls : (run { State.reset with disp := State.reset.disp.setPixel 31 63 true }
    0x00E0).map (fun t => (t.displayOut 31 63, t.v[15])) = some (false, 0) := by decide

/-- The state of vector G4. -/
def drawState : State :=
  { withV [(0, 62), (1, 31)] with idx := 0x300, mem := [(0x300, 0xC3), (0x301, 0x81)] }

/-- The lit pixels, row by row. -/
def litPixels (t : State) : List (Nat × Nat) :=
  (List.finRange 32).flatMap fun r => (List.finRange 64).filterMap fun c =>
    if t.disp[r][c] then some (r.val, c.val) else none

-- G4, G6
theorem test_drw_wraps : (run drawState 0xD012).map (fun t => (litPixels t, t.v[15])) =
    some ([(0, 5), (0, 62), (31, 4), (31, 5), (31, 62), (31, 63)], 0) := by decide +kernel
theorem test_drw_noRows : (run { withV [(15, 0x55)] with idx := 0xFFFF } 0xD010).map
    (fun t => (t.v[15], t.halted)) = some (0, false) := by decide
-- K1, K5
theorem test_skp : (run (withKeys (withV [(5, 0x0A)]) 0x0400) 0xE59E).map (·.pc) =
    some 0x204 := by decide
theorem test_skp_fault : (run (withV [(5, 0x10)]) 0xE59E).map faultOf =
    some (true, .keyIndexOutOfRange, 0xE59E, 0x0010, 0x200) := by decide
-- K3, K6
theorem test_sknp : (run (withV [(5, 0x0A)]) 0xE5A1).map (·.pc) = some 0x204 := by decide
theorem test_sknp_fault : (run (withV [(5, 0xFF)]) 0xE5A1).map faultOf =
    some (true, .keyIndexOutOfRange, 0xE5A1, 0x00FF, 0x200) := by decide
-- K7
theorem test_ldVxDt : (run { State.reset with dt := 0x3C } 0xF307).map (·.v[3]) = some 0x3C := by
  decide
-- K8, K9
theorem test_ldVxK_waits : (run { State.reset with pc := 0x210 } 0xF30A).map
    (fun t => (t.pc, t.keyWait, t.v[3])) = some (0x210, true, 0) := by decide
theorem test_ldVxK_least : (run (withKeys { State.reset with pc := 0x210, keyWait := true } 0x0024)
    0xF30A).map (fun t => (t.pc, t.keyWait, t.v[3])) = some (0x212, false, 2) := by decide
-- K11, K13
theorem test_ldDtVx : (run (withV [(3, 0x3C)]) 0xF315).map (·.dt) = some 0x3C := by decide
theorem test_ldStVx : (run { State.reset with st := 5 } 0xF018).map (fun t => (t.st, t.soundOn)) =
    some (0, false) := by decide

/-! ## Events and engine -/

/-- The state an answer holds. -/
def next? (r : Result) : Option State :=
  match r with
  | .next t => some t
  | _ => none

-- T1, T3
theorem test_tick : (next? (deliver .tick { State.reset with dt := 2, st := 1 })).map
    (fun t => (t.dt, t.st, t.soundOn)) = some (1, 0, false) := by decide
theorem test_tick_halted : (next? (deliver .tick { State.reset with dt := 5, halted := true })).map
    (·.dt) = some 5 := by decide
-- X1: nothing loaded
theorem test_reset_runs_illegal : (next? (step State.reset)).map faultOf =
    some (true, .illegalInstruction, 0, 0, 0x200) := by decide
-- X2
theorem test_fetch_fault : (next? (deliver (.cycle 0) { State.reset with pc := 0xFFF })).map
    faultOf = some (true, .fetchOutOfBounds, 0, 0xFFF, 0xFFF) := by decide
-- X6
theorem test_reset_event :
    (next? (deliver .reset { State.reset with halted := true, faultCause := .illegalInstruction })).map
      (fun t => (t.halted, t.faultCause, t.pc)) = some (false, .none, 0x200) := by decide
-- X7 and E7's image
theorem test_loadRom_rejected : (next? (deliver (.loadRom [0x77])
    { State.reset with cycled := true })).map (·.mem.read 0x200) = some 0 := by decide
theorem test_loadRom : (next? (deliver (.loadRom [0x60, 0x0A, 0x61, 0x05, 0x80, 0x14])
    State.reset)).map (fun t => (t.mem.read 0x200, t.mem.read 0x205, t.mem.read 0x206)) =
      some (0x60, 0x14, 0) := by decide
-- X8, X9
theorem test_loadRom_bound : State.reset.admitsRom (List.replicate 0xE00 0) = true ∧
    State.reset.admitsRom (List.replicate 0xE01 0) = false := by
  rw [State.admitsRom, State.admitsRom, test_wellFormed_rom, test_wellFormed_rom]
  decide
theorem test_setKeys : (next? (deliver (.setKeys 0x0024) State.reset)).map
    (fun t => (t.keys[2], t.keys[3], t.keys[5])) = some (true, false, true) := by decide
theorem test_step_takes_event : (next? (step { State.reset with events := [.tick, .reset] })).map
    (·.events) = some [.reset] := by decide

/-! ## Witnesses: for each statement with hypotheses, a state and operands that meet them together,
one for each clause, at the edges of its range -/

theorem witness_EncodeOfDecode : decode 0xFF65 = .ok (.loadRegs 15) := by decide
theorem witness_DecodeIsTheOneSelectedRow :
    (decode 0x00E0 = .ok .cls ∧ (0x00E0 : Word) &&& Instr.cls.row.mask = Instr.cls.row.value) ∧
    ∀ r ∈ opcodeMap, (0x00E1 : Word) &&& r.mask ≠ r.value := by decide
theorem witness_IllegalWords : decode 0x00EF = .error .category0 ∧
    decode 0x500F = .error .category5 ∧ decode 0x9001 = .error .category9 ∧
    decode 0x800D = .error .category8 ∧ decode 0x800F = .error .category8 ∧
    decode 0xE09F = .error .categoryE ∧ decode 0xF066 = .error .categoryF := by decide
theorem witness_StepDeliversOldestEvent :
    ({ State.reset with events := [.tick, .cycle 3] } : State).events = .tick :: [.cycle 3] := rfl
theorem witness_StepRunsDecodedInstruction :
    let s : State := { State.reset with pc := 0xFFE, mem := [(0xFFE, 0x12), (0xFFF, 0x34)] }
    s.halted = false ∧ s.pc.toNat ≤ 0xFFE ∧ s.events = [] ∧
      decodeBytes [s.mem.read s.pc.toNat, s.mem.read (s.pc.toNat + 1)] = .ok (.jp 0x234, []) := by
  decide
theorem witness_StepRunsDecodedInstruction_scheduled :
    let s : State := { at200 State.reset 0xC0 0x0F with events := [.cycle 0xA7, .tick] }
    s.halted = false ∧ s.pc.toNat ≤ 0xFFE ∧ s.events = .cycle 0xA7 :: [.tick] ∧
      decodeBytes [s.mem.read s.pc.toNat, s.mem.read (s.pc.toNat + 1)] = .ok (.rnd 0 0x0F, []) := by
  decide
theorem witness_FetchIsBigEndianOrFaults :
    ({ State.reset with pc := 0xFFE } : State).pc.toNat ≤ 0xFFE ∧
    0xFFE < ({ State.reset with pc := 0xFFF } : State).pc.toNat ∧
    ({ State.reset with pc := 0xFFF } : State).halted = false := by decide
theorem witness_CycleFaultsExactly :
    ({ State.reset with halted := true } : State).halted = true ∧
    (let s : State := { State.reset with pc := 0xFFF }
     s.halted = false ∧ 0xFFE < s.pc.toNat) ∧
    (let s : State := { State.reset with pc := 0xFFE, mem := [(0xFFF, 0xEE)] }
     s.halted = false ∧ s.pc.toNat ≤ 0xFFE ∧ (0x00EE : Word).toNat = wordAtPc s ∧
       decode 0x00EE = .ok .ret ∧ ownFault s .ret = some (.stackUnderflow, 0)) ∧
    (let s : State := { State.reset with pc := 0xFFE, mem := [(0xFFE, 0x50), (0xFFF, 0x01)] }
     s.halted = false ∧ s.pc.toNat ≤ 0xFFE ∧ (0x5001 : Word).toNat = wordAtPc s ∧
       decode 0x5001 = .error .category5) ∧
    (let s : State := at200 State.reset 0x00 0xE0
     (0x00E0 : Word).toNat = wordAtPc s ∧ decode 0x00E0 = .ok .cls ∧ ownFault s .cls = none) := by
  decide
theorem witness_HaltedUntilReset :
    let s : State := { State.reset with halted := true, cycled := true }
    s.halted = true ∧ s.cycled = true ∧ Event.tick ≠ .reset ∧ deliver .tick s = .next s :=
  ⟨rfl, rfl, nofun, rfl⟩
theorem witness_TickDecrementsTimers : State.reset.halted = false ∧
    ({ State.reset with halted := true, dt := 1 } : State).halted = true := by decide
theorem witness_LoadRom_admitted :
    (List.replicate 0xE00 (1 : Byte)).length ≤ 0xE00 ∧ State.reset.cycled = false :=
  ⟨by rw [List.length_replicate], rfl⟩
theorem witness_LoadRom_rejected :
    ¬ ((List.replicate 0xE01 (1 : Byte)).length ≤ 0xE00 ∧ State.reset.cycled = false) ∧
    ¬ (([] : List Byte).length ≤ 0xE00 ∧
      ({ State.reset with cycled := true } : State).cycled = false) := by
  rw [List.length_replicate]; decide
theorem witness_LoadRom_cycle : (at200 State.reset 0x60 0x01).halted = false ∧
    ∃ t, cycle none (at200 State.reset 0x60 0x01) = .next t := ⟨rfl, _, rfl⟩
theorem witness_LoadRom_reset : ∃ t, deliver .reset State.reset = .next t := ⟨_, rfl⟩
theorem witness_StepKeepsInvariant : Inv State.reset ∧ ∃ t, step State.reset = .next t :=
  ⟨⟨by decide, by decide, by decide, by decide, nofun, nofun⟩, _, rfl⟩
theorem witness_TickAndCycleOrders :
    State.reset.halted = false ∧
    (∀ x, Instr.rnd 0 1 ≠ .ldVxDt x ∧ Instr.rnd 0 1 ≠ .ldDtVx x ∧ Instr.rnd 0 1 ≠ .ldStVx x) ∧
    ∃ t, exec (.rnd 0 1) State.reset = .next t ∧ t.halted = false :=
  ⟨rfl, by decide, _, rfl, rfl⟩
theorem witness_SelfJumpStaysEnded : EndedWell (at200 State.reset 0x12 0x00) ∧
    EndedWell { State.reset with pc := 0xFFE, mem := [(0xFFE, 0x1F), (0xFFF, 0xFE)] } :=
  ⟨⟨by decide, by decide, by decide⟩, ⟨by decide, by decide, by decide⟩⟩
theorem witness_KeyWait_instruction : (∃ t, exec (.ldVxK 3) State.reset = .next t) ∧
    ∃ t, exec .cls { State.reset with keyWait := true } = .next t := ⟨⟨_, rfl⟩, _, rfl⟩
theorem witness_KeyWait_fault : ({ State.reset with keyWait := true } : State).halted = false ∧
    ∃ t, cycle none { State.reset with keyWait := true } = .next t ∧ t.halted = true :=
  ⟨rfl, _, rfl, rfl⟩
theorem witness_InstructionsWriteOnlyTheirDestinations :
    (∃ t, exec (.storeRegs 0) { State.reset with idx := 0xFFF } = .next t) ∧
    mayWriteReg 1 (.loadRegs 0) = false ∧
    ¬ (0xFFF ≤ 0xFFE ∧ 0xFFE < 0xFFF + storeCount (.storeRegs 0)) ∧
    ¬ (0xFFF ≤ 0x1000 ∧ 0x1000 < 0xFFF + storeCount (.storeRegs 0)) := ⟨⟨_, rfl⟩, by decide⟩
theorem witness_OnlyCallAndReturnMoveTheStack :
    (∃ t, exec (.call 0x300) State.reset = .next t ∧ t.sp ≠ State.reset.sp ∧
      t.stack[(0 : Fin 16)] ≠ State.reset.stack[(0 : Fin 16)]) ∧
    ∃ t, exec .ret { State.reset with sp := 16 } = .next t ∧ t.sp ≠ 16 :=
  ⟨⟨_, rfl, by decide, by decide⟩, _, rfl, by decide⟩
theorem witness_OnlyDrawReadsDisplay : (∀ x y n, Instr.cls ≠ .drw x y n) ∧
    ∃ t, exec .cls State.reset = .next t := ⟨nofun, _, rfl⟩
theorem witness_OnlyRndReadsRandomByte : (∀ x kk, Instr.ldB 0 ≠ .rnd x kk) ∧
    ∃ t, exec (.ldB 0) State.reset = .next t := ⟨nofun, _, rfl⟩
theorem witness_OnlyKeyInstructionsReadKeypad :
    (∀ x, Instr.ldVxDt 0 ≠ .skp x ∧ Instr.ldVxDt 0 ≠ .sknp x ∧ Instr.ldVxDt 0 ≠ .ldVxK x) ∧
    ∃ t, exec (.ldVxDt 0) State.reset = .next t := ⟨by decide, _, rfl⟩
theorem witness_SoundTimerIsNotRead : (∃ t, exec (.ldStVx 0) State.reset = .next t) ∧
    ∃ t, exec (.ldVxDt 0) State.reset = .next t := ⟨⟨_, rfl⟩, _, rfl⟩
theorem witness_StaleStackEntriesAreNotRead :
    let s : State := { State.reset with sp := 1 }
    (∀ j : Fin 16, j.val < s.sp.val → (s.stack.set 1 0xBAD)[j] = s.stack[j]) ∧
    (s.stack.set 1 0xBAD) ≠ s.stack ∧
    (∃ t, exec .ret s = .next t) ∧ ∃ t, exec (.call 0x300) s = .next t :=
  ⟨by decide, by decide, ⟨_, rfl⟩, _, rfl⟩
theorem witness_StatusRegistersAreNotRead :
    (∃ t, exec .cls State.reset = .next t ∧ ownFault State.reset .cls = none) ∧
    ∃ t, exec .ret State.reset = .next t ∧
      ownFault State.reset .ret = some (.stackUnderflow, 0) := ⟨⟨_, rfl, rfl⟩, _, rfl, rfl⟩
theorem witness_ReturnPops : State.reset.sp.val = 0 ∧
    ({ State.reset with sp := 1 } : State).sp.val = (0 : Fin 16).val + 1 ∧
    ({ State.reset with sp := 16 } : State).sp.val = (15 : Fin 16).val + 1 := by decide
theorem witness_CallPushes : State.reset.sp.val = (0 : Fin 16).val ∧
    ({ State.reset with sp := 15 } : State).sp.val = (15 : Fin 16).val ∧
    ({ State.reset with sp := 16 } : State).sp.val = 16 ∧ (14 : Fin 16) ≠ 15 := by decide
theorem witness_ReturnUndoesCall : ({ State.reset with sp := 15 } : State).sp.val < 16 ∧
    (14 : Fin 16).val < 15 ∧
    ∃ t u, exec (.call 0x300) { State.reset with sp := 15 } = .next t ∧ u.sp = t.sp ∧
      u.stack = t.stack ∧ u ≠ t := ⟨by decide, by decide, _, { State.reset with
        sp := 16, stack := State.reset.stack.set 15 0x202 }, rfl, rfl, rfl, by decide⟩
theorem witness_ResultAndFlag : (14 : Reg) ≠ 15 ∧ (13 : Reg) ≠ 14 ∧ (13 : Reg) ≠ 15 := by decide
theorem witness_RandomIsMasked : State.reset.rndIn = none ∧
    ({ State.reset with rndIn := some 0xA7 } : State).rndIn = some 0xA7 := by decide
theorem witness_BcdStoresDigits : ({ State.reset with idx := 0xFFD } : State).idx.toNat + 2 ≤ 0xFFF ∧
    0xFFF < ({ State.reset with idx := 0xFFE } : State).idx.toNat + 2 ∧
    ¬ (0xFFD ≤ 0xFFC ∧ 0xFFC ≤ 0xFFD + 2) := by decide
theorem witness_RegisterStore :
    ({ State.reset with idx := 0xFF0 } : State).idx.toNat + (15 : Reg).val ≤ 0xFFF ∧
    0xFFF < ({ State.reset with idx := 0xFF1 } : State).idx.toNat + (15 : Reg).val ∧
    ¬ (0xFF0 ≤ 0xFEF ∧ 0xFEF ≤ 0xFF0 + (15 : Reg).val) ∧ (15 : Reg) ≤ 15 := by decide
theorem witness_RegisterLoad :
    ({ State.reset with idx := 0xFFF } : State).idx.toNat + (0 : Reg).val ≤ 0xFFF ∧
    0xFFF < ({ State.reset with idx := 0x1000 } : State).idx.toNat + (0 : Reg).val ∧
    (0 : Reg) ≤ 0 ∧ (0 : Reg) < 1 := by decide
theorem witness_StoreThenLoadRestores :
    let s : State := { withV [(0, 9)] with idx := 0xFFE }
    s.idx.toNat + (1 : Reg).val ≤ 0xFFF ∧ (1 : Reg) ≤ 1 ∧
    ∃ t u : State, exec (.storeRegs 1) s = .next t ∧ u.mem = t.mem ∧ u.idx = t.idx ∧ u.v ≠ t.v :=
  ⟨by decide, by decide, _, { State.reset with idx := 0xFFE, mem := [(0xFFE, 9)] },
    rfl, by decide, rfl, by decide⟩
theorem witness_StoredBytesAreFetched :
    let s : State := { withV [(0, 0x12), (1, 0x34)] with idx := 0xFFE }
    s.idx.toNat + (1 : Reg).val ≤ 0xFFF ∧ (1 : Reg).val = (0 : Reg).val + 1 ∧ (1 : Reg) ≤ 1 ∧
    ∃ t u : State, exec (.storeRegs 1) s = .next t ∧ u.mem = t.mem ∧
      u.pc.toNat = s.idx.toNat + (0 : Reg).val :=
  ⟨by decide, by decide, by decide, _,
    { State.reset with pc := 0xFFE, mem := [(0xFFE, 0x12), (0xFFF, 0x34)] }, rfl, by decide, rfl⟩
theorem witness_DrawXorsSprite :
    (0 : Nibble).toNat = 0 ∧
    ({ State.reset with idx := 0xFF1 } : State).idx.toNat + (15 : Nibble).toNat - 1 ≤ 0xFFF ∧
    (15 : Nibble).toNat ≠ 0 ∧
    0xFFF < ({ State.reset with idx := 0xFF2 } : State).idx.toNat + (15 : Nibble).toNat - 1 := by
  decide
theorem witness_DrawXorsSprite_covered : SpriteCovers drawState 0 1 2 0 5 ∧
    ¬ SpriteCovers drawState 0 1 0 0 5 :=
  ⟨⟨1, 7, by decide⟩, fun ⟨_, _, h, _⟩ => absurd h (Nat.not_lt_zero _)⟩
theorem witness_DrawTwiceRestores : drawState.halted = false ∧
    ∃ t w, exec (.drw 0 1 2) drawState = .next t ∧ t.halted = false ∧ t.v[(0 : Reg)] = 62 ∧
      t.v[(1 : Reg)] = 31 ∧ t.idx = 0x300 ∧ t.mem = drawState.mem ∧
      exec (.drw 0 1 2) t = .next w :=
  ⟨rfl, _, _, rfl, rfl, rfl, rfl, rfl, rfl, rfl⟩
theorem witness_SkipsOnKey : (withV [(5, 0xF)]).v[(5 : Reg)].toNat = (15 : Fin 16).val ∧
    (withV [(5, 0)]).v[(5 : Reg)].toNat = (0 : Fin 16).val ∧
    0xF < (withV [(5, 0x10)]).v[(5 : Reg)].toNat := by decide
theorem witness_KeyWaitTakesLeastKey : (∀ k : Fin 16, State.reset.keys[k] = false) ∧
    (withKeys State.reset 0x8000).keys[(15 : Fin 16)] = true ∧
    (∀ j : Fin 16, j < 15 → (withKeys State.reset 0x8000).keys[j] = false) ∧
    (withKeys State.reset 0xFFFF).keys[(0 : Fin 16)] = true ∧
    ∀ j : Fin 16, j < 0 → (withKeys State.reset 0xFFFF).keys[j] = false := by decide

end Sys2Proof.Tests
end

section
/-! SUPPORT. What executing an instruction can do, once for all 34: the fault entry of R231 and R232
where the instruction's own condition holds, and otherwise one completed state. Frames,
non-interference and the invariant are read off it. -/

namespace Sys2Proof.Machine

/-- The state a skip completes in: one word further, or two where the condition holds (R120). -/
def State.skipped (s : State) (c : Bool) : State := s.commit.setPc (if c then s.pc1 + 2 else s.pc1)

/-- The state an instruction completes in where it does not fault (R92, R94, R97). Where it faults
this state is reached by nothing; `exec_eq` ties both to `exec`. -/
def completed (i : Instr) (s : State) : State :=
  match i with
  | .cls => s.commit.setDisp blankDisplay
  | .ret =>
    (s.commit.setStack s.stack ⟨s.sp.val - 1, by omega⟩).setPc (s.stack[s.sp.val - 1]'(by omega))
  | .jp nnn => s.commit.setPc (zextAddr nnn)
  | .call nnn =>
    (s.commit.setStack (s.stack.setIfInBounds s.sp.val s.pc1)
      ⟨min (s.sp.val + 1) 16, by omega⟩).setPc (zextAddr nnn)
  | .seImm x kk => s.skipped (s.reg x == kk)
  | .sneImm x kk => s.skipped (s.reg x != kk)
  | .seReg x y => s.skipped (s.reg x == s.reg y)
  | .sneReg x y => s.skipped (s.reg x != s.reg y)
  | .ldImm x kk => s.commit.setV x kk
  | .addImm x kk => s.commit.setV x (s.reg x + kk)
  | .ldReg x y => s.commit.setV x (s.reg y)
  | .orReg x y => s.commit.setV x (s.reg x ||| s.reg y)
  | .andReg x y => s.commit.setV x (s.reg x &&& s.reg y)
  | .xorReg x y => s.commit.setV x (s.reg x ^^^ s.reg y)
  | .addReg x y => s.commit.setFlagged (carryFlag (s.reg x) (s.reg y)) x (s.reg x + s.reg y)
  | .sub x y => s.commit.setFlagged (notBorrowFlag (s.reg x) (s.reg y)) x (s.reg x - s.reg y)
  | .shr x _ => s.commit.setFlagged (lowBitFlag (s.reg x)) x (s.reg x >>> 1)
  | .subn x y => s.commit.setFlagged (notBorrowFlag (s.reg y) (s.reg x)) x (s.reg y - s.reg x)
  | .shl x _ => s.commit.setFlagged (highBitFlag (s.reg x)) x (s.reg x <<< 1)
  | .ldI nnn => s.commit.setIdx (zextAddr nnn)
  | .jpV0 nnn => s.commit.setPc (s.computedTarget nnn)
  | .rnd x kk => s.commit.setV x (s.rndByte &&& kk)
  | .drw x y n => (s.commit.setDisp (s.drawn x y n).1).setV vf (flagByte (s.drawn x y n).2)
  | .skp x => s.skipped (s.keyAt (s.reg x) == some true)
  | .sknp x => s.skipped (s.keyAt (s.reg x) == some false)
  | .ldVxDt x => s.commit.setV x s.dt
  | .ldVxK x =>
    match s.leastKey with
    | none => (s.commit.setPc s.pc).setKeyWait true
    | some k => s.commit.setV x (BitVec.ofNat 8 k.val)
  | .ldDtVx x => s.commit.setDt (s.reg x)
  | .ldStVx x => s.commit.setSt (s.reg x)
  | .addI x => s.commit.setIdx (s.idx + zextByte (s.reg x))
  | .ldF x => s.commit.setIdx (glyphAddr (s.reg x))
  | .ldB x => s.commit.setMem (s.mem.writeBytes (s.dataAddr 0) (bcdDigits (s.reg x)))
  | .storeRegs x => s.commit.setMem (s.mem.writeBytes (s.dataAddr 0) (s.regsUpTo x))
  | .loadRegs x => s.commit.setRegs (s.regsLoaded x)

/-- The state an instruction ends in: its own fault (R231, R232), or completed. -/
def outcome (i : Instr) (s : State) : State :=
  match ownFault s i with
  | some (c, a) => s.enterFault (encode i) c a
  | none => completed i s

theorem outcome_of_fault {i : Instr} {s : State} {c : FaultCause} {a : Word}
    (h : ownFault s i = some (c, a)) : outcome i s = s.enterFault (encode i) c a := by
  simp [outcome, h]

theorem outcome_of_noFault {i : Instr} {s : State} (h : ownFault s i = none) :
    outcome i s = completed i s := by
  simp [outcome, h]

/-- Fault entry or completion, as the two cases of the instruction's own condition. -/
theorem outcome_cases (i : Instr) (s : State) :
    (∃ c a, ownFault s i = some (c, a) ∧ outcome i s = s.enterFault (encode i) c a) ∨
    (ownFault s i = none ∧ outcome i s = completed i s) := by
  cases h : ownFault s i with
  | none => exact .inr ⟨rfl, outcome_of_noFault h⟩
  | some ca => exact .inl ⟨ca.1, ca.2, rfl, outcome_of_fault h⟩

/-! The call stack's two conditions (R121, R122). -/

theorem outcome_ret_empty {s : State} (h : s.sp.val = 0) :
    outcome .ret s = s.enterFault (encode .ret) .stackUnderflow 0 :=
  outcome_of_fault (if_pos h : ownFault s .ret = _)

theorem outcome_ret_nonempty {s : State} (h : s.sp.val ≠ 0) :
    outcome .ret s = completed .ret s :=
  outcome_of_noFault (if_neg h : ownFault s .ret = _)

theorem outcome_call_full {s : State} (nnn : Addr) (h : s.sp.val = 16) :
    outcome (.call nnn) s = s.enterFault (encode (.call nnn)) .stackOverflow 0 :=
  outcome_of_fault (if_pos h : ownFault s (.call nnn) = _)

theorem outcome_call_notFull {s : State} (nnn : Addr) (h : s.sp.val ≠ 16) :
    outcome (.call nnn) s = completed (.call nnn) s :=
  outcome_of_noFault (if_neg h : ownFault s (.call nnn) = _)

/-- The data condition of R62 as `ownFault` words it: a count of at least 1 runs past 0xFFF. -/
theorem exec_data_eq {i : Instr} {s d : State} {n : Nat}
    (hf : ownFault s i = if 0 < n ∧ 0xFFF < s.idx.toNat + n - 1 then
      some (.dataOutOfBounds, dataFaultAddr s) else none)
    (hd : completed i s = d) : accessData (encode i) n s d = .next (outcome i s) := by
  rcases accessData_cases (encode i) n s d with ⟨h0, h, ha⟩ | ⟨h, ha⟩
  · rw [if_pos (by omega)] at hf
    rw [ha, outcome_of_fault hf, dataFaultAddr]
  · rw [if_neg (by omega)] at hf
    rw [ha, outcome_of_noFault hf, hd]

theorem zextByte_eq_ofNat (b : Byte) : zextByte b = BitVec.ofNat 16 b.toNat :=
  (BitVec.ofNat_toNat 16 b).symm

/-- The key condition of R216: a number above 0xF faults, and a key's number skips on its state. -/
theorem exec_skipOnKey_eq {i : Instr} {s : State} {x : Reg} {p : Bool}
    (hf : ownFault s i = if 0xF < (s.reg x).toNat then
      some (.keyIndexOutOfRange, BitVec.ofNat 16 (s.reg x).toNat) else none)
    (hd : completed i s = s.skipped (s.keyAt (s.reg x) == some p)) :
    skipOnKey (encode i) (s.reg x) p s = .next (outcome i s) := by
  rcases s.keyAt_cases (s.reg x) with ⟨h, hk⟩ | ⟨h, hk⟩
  · rw [if_pos h] at hf
    have hz := zextByte_eq_ofNat (s.reg x)
    simp only [skipOnKey, hk, raise_eq, outcome_of_fault hf, hz]
  · rw [if_neg (by omega)] at hf
    rw [outcome_of_noFault hf, hd, hk]
    simp only [skipOnKey, hk, skipIf_eq]
    rfl

/-- The slot a push writes lies in the stack (R121). -/
theorem setIfInBounds_eq_set {n k : Nat} (v : Vector Word n) (h : k < n) (w : Word) :
    v.setIfInBounds k w = v.set k w h := by
  ext i hi
  simp [Vector.getElem_set, Vector.getElem_setIfInBounds]

/-- `exec` answers the outcome, for every instruction and state. -/
theorem exec_eq (i : Instr) (s : State) : exec i s = .next (outcome i s) := by
  cases i with
  | ret =>
    rcases s.pop_cases with ⟨h, hp⟩ | ⟨h, hp⟩
    · simp [exec, execRet, hp, raise_eq, outcome_ret_empty h]
    · simp [exec, execRet, hp, outcome_ret_nonempty (Nat.ne_of_gt h), completed]
  | call nnn =>
    rcases s.push_cases s.pc1 with ⟨h, hp⟩ | ⟨h, hp⟩
    · simp [exec, execCall, hp, raise_eq, outcome_call_full nnn h]
    · simp [exec, execCall, hp, outcome_call_notFull nnn (Nat.ne_of_lt h), completed,
        setIfInBounds_eq_set _ h, Nat.min_eq_left (Nat.succ_le_of_lt h)]
  | seImm | sneImm | seReg | sneReg => exact skipIf_eq _ s
  | drw x y n => exact exec_data_eq rfl rfl
  | ldB x => exact exec_data_eq (by simp [ownFault]) rfl
  | storeRegs x => exact exec_data_eq (by simp [ownFault]) rfl
  | loadRegs x => exact exec_data_eq (by simp [ownFault]) rfl
  | skp x => exact exec_skipOnKey_eq rfl rfl
  | sknp x => exact exec_skipOnKey_eq rfl rfl
  | ldVxK x =>
    change execLdVxK x s = .next (completed (.ldVxK x) s)
    unfold execLdVxK completed
    cases s.leastKey <;> rfl
  | _ => rfl

/-- An instruction that answers a state answers its outcome. -/
theorem eq_outcome_of_exec {i : Instr} {s t : State} (h : exec i s = .next t) :
    t = outcome i s := by
  rw [exec_eq] at h
  exact (Host.Outcome.next.inj h).symm

end Sys2Proof.Machine
end

section
/-! SUPPORT. The frame of every instruction, read off its outcome, and the statements about what an
instruction writes. -/

namespace Sys2Proof.Machine

/-- More parts named, less claimed. -/
theorem SameExcept.mono {ps qs : List Part} {s t : State} (h : SameExcept ps s t) (hs : ps ⊆ qs) :
    SameExcept qs s t := by
  obtain ⟨hv, hi, hk, hdt, hst, hm, hd, hy, hf, hown⟩ := h
  exact ⟨fun n => hv (n ∘ @hs _), fun n => hi (n ∘ @hs _), fun n => hk (n ∘ @hs _),
    fun n => hdt (n ∘ @hs _), fun n => hst (n ∘ @hs _), fun n => hm (n ∘ @hs _),
    fun n => hd (n ∘ @hs _), fun n => hy (n ∘ @hs _), fun n => hf (n ∘ @hs _), hown⟩

/-- Fault entry writes the status registers only (R232). -/
theorem sameExcept_enterFault (op : Word) (c : FaultCause) (a : Word) (s : State) :
    SameExcept [.fault] s (s.enterFault op c a) := by
  simp [SameExcept]

/-- Completing writes registers and the parts the instruction's rule names, nothing else. -/
theorem sameExcept_completed (i : Instr) (s : State) :
    SameExcept (.regs :: mayWrite i) s (completed i s) := by
  cases i with
  | ldVxK x =>
    unfold completed
    cases s.leastKey <;> simp [SameExcept]
  | _ => simp [SameExcept, completed, mayWrite, State.skipped]

/-- An instruction writes registers, the parts its rule names, and the fault registers. -/
theorem sameExcept_outcome (i : Instr) (s : State) :
    SameExcept (.regs :: .fault :: mayWrite i) s (outcome i s) := by
  rcases outcome_cases i s with ⟨c, a, -, ho⟩ | ⟨-, ho⟩ <;> rw [ho]
  · exact (sameExcept_enterFault ..).mono (by simp)
  · exact (sameExcept_completed i s).mono (by simp)

/-- A completing instruction writes its destination registers only (R21, R22). -/
theorem completed_reg {i : Instr} {r : Reg} (s : State) (h : mayWriteReg r i = false) :
    (completed i s).v[r] = s.v[r] := by
  cases i with
  | ldVxK x =>
    have hr : r ≠ x := by simpa [mayWriteReg] using h
    unfold completed
    cases s.leastKey
    · rfl
    · exact (State.setV_get ..).trans (if_neg hr)
  | loadRegs x =>
    have hr : ¬ r ≤ x := by simpa [mayWriteReg] using h
    exact (s.regsLoaded_get x r).trans (if_neg hr)
  | ldImm x | addImm x | ldReg x | orReg x | andReg x | xorReg x | rnd x | ldVxDt x =>
    have hr : r ≠ x := by simpa [mayWriteReg] using h
    exact (State.setV_get ..).trans (if_neg hr)
  | addReg x | sub x | shr x | subn x | shl x =>
    obtain ⟨hr, hf⟩ : r ≠ x ∧ r ≠ 15 := by simpa [mayWriteReg] using h
    obtain ⟨-, -, -, hrest⟩ := writeFlagged_spec _ x _ s
    exact hrest r hr hf
  | drw x y n =>
    have hr : r ≠ vf := by simpa [mayWriteReg, vf] using h
    exact (State.setV_get ..).trans (if_neg hr)
  | _ => rfl

/-- A completing instruction stores bytes at `I` upwards only, as many as its count (R65). -/
theorem completed_mem_outside {i : Instr} {s : State} {a : Nat}
    (h : ¬ (s.idx.toNat ≤ a ∧ a < s.idx.toNat + storeCount i)) :
    (completed i s).mem.read a = s.mem.read a := by
  cases i with
  | ldB x => exact Memory.read_writeBytes_outside (bs := bcdDigits _) h
  | storeRegs x =>
    exact Memory.read_writeBytes_outside (bs := s.regsUpTo x) (by rwa [s.regsUpTo_length x])
  | _ =>
    obtain ⟨-, -, -, -, -, hm, -⟩ := sameExcept_completed _ s
    exact hm (by simp [mayWrite]) a

/-- Settles O23: the frame of the outcome, which is a fault entry or the completed state. -/
theorem instructionsWriteOnlyTheirDestinations :
    Obligations.InstructionsWriteOnlyTheirDestinations := by
  intro i s t h
  obtain rfl := eq_outcome_of_exec h
  refine ⟨fun r hr => ?_, sameExcept_outcome i s, fun a ha => ?_⟩ <;>
    rcases outcome_cases i s with ⟨c, k, -, ho⟩ | ⟨-, ho⟩ <;> rw [ho]
  · rfl
  · exact completed_reg s hr
  · rfl
  · exact completed_mem_outside ha

/-- Only the call and the return name the stack among what they write. -/
theorem stack_mem_mayWrite {i : Instr} (h : Part.stack ∈ mayWrite i) :
    i = .ret ∨ ∃ nnn, i = .call nnn := by
  cases i with
  | ret => exact .inl rfl
  | call nnn => exact .inr ⟨nnn, rfl⟩
  | _ => simp [mayWrite] at h

/-- Every instruction but the call and the return leaves the stack and its pointer (R26, R27). -/
theorem outcome_stack {i : Instr} (s : State) (h : Part.stack ∉ mayWrite i) :
    (outcome i s).sp = s.sp ∧ (outcome i s).stack = s.stack := by
  obtain ⟨-, -, hstack, -⟩ := sameExcept_outcome i s
  exact hstack (by simpa using h)

/-- The return takes one entry off and writes none (R122); at depth 0 it faults. -/
theorem outcome_ret_stack (s : State) :
    (outcome .ret s).stack = s.stack ∧
      ((outcome .ret s).sp = s.sp ∨ (outcome .ret s).sp.val + 1 = s.sp.val) := by
  by_cases h : s.sp.val = 0
  · rw [outcome_ret_empty h]
    exact ⟨rfl, .inl rfl⟩
  · rw [outcome_ret_nonempty h]
    exact ⟨rfl, .inr (Nat.sub_add_cancel (Nat.pos_of_ne_zero h))⟩

/-- The call writes the slot at the old depth and adds one to it (R121); at depth 16 it faults. -/
theorem outcome_call_stack (nnn : Addr) (s : State) :
    ((outcome (.call nnn) s).sp = s.sp ∨ (outcome (.call nnn) s).sp.val = s.sp.val + 1) ∧
      ∀ j : Fin 16, j.val ≠ s.sp.val → (outcome (.call nnn) s).stack[j] = s.stack[j] := by
  by_cases h : s.sp.val = 16
  · rw [outcome_call_full nnn h]
    exact ⟨.inl rfl, fun _ _ => rfl⟩
  · rw [outcome_call_notFull nnn h]
    refine ⟨.inr ?_, fun j hj => ?_⟩
    · exact Nat.min_eq_left (by omega)
    · exact (Vector.getElem_setIfInBounds ..).trans (if_neg (Ne.symm hj))

/-- Settles O24: only the call and the return may write the stack, and each does as R121 and R122
say. -/
theorem onlyCallAndReturnMoveTheStack : Obligations.OnlyCallAndReturnMoveTheStack := by
  intro i s t h
  obtain rfl := eq_outcome_of_exec h
  by_cases hw : Part.stack ∈ mayWrite i
  · rcases stack_mem_mayWrite hw with rfl | ⟨nnn, rfl⟩
    · obtain ⟨hk, hp⟩ := outcome_ret_stack s
      exact ⟨fun hne => .inr ⟨rfl, hp.resolve_left hne⟩, fun j hj => absurd (by rw [hk]) hj⟩
    · obtain ⟨hp, hk⟩ := outcome_call_stack nnn s
      refine ⟨fun hne => .inl ⟨⟨nnn, rfl⟩, hp.resolve_left hne⟩, fun j hj => ⟨⟨nnn, rfl⟩, ?_⟩⟩
      by_contra hne
      exact hj (hk j hne)
  · obtain ⟨hp, hk⟩ := outcome_stack s hw
    exact ⟨fun hne => absurd hp hne, fun j hj => absurd (by rw [hk]) hj⟩

end Sys2Proof.Machine
end

section
/-! SUPPORT. What an instruction does not read. Each field at hand is replaced in the start state,
and the outcome is the same but for that field: neither the instruction's own fault condition nor
its completed state mentions it. -/

namespace Sys2Proof.Machine

/-- Where a change `f` of the state neither shows in the fault condition nor is undone by an
instruction, fault entry and completion commute with it, and so does the instruction. -/
theorem exec_commutes {i : Instr} {s t : State} {f : State → State}
    (hown : ownFault (f s) i = ownFault s i)
    (hfault : ∀ c a, (f s).enterFault (encode i) c a = f (s.enterFault (encode i) c a))
    (hdone : ownFault s i = none → completed i (f s) = f (completed i s)) (h : exec i s = .next t) :
    exec i (f s) = .next (f t) := by
  rw [exec_eq, eq_outcome_of_exec h]
  rcases outcome_cases i s with ⟨c, a, hf, ho⟩ | ⟨hf, ho⟩
  · rw [ho, outcome_of_fault (hown.trans hf), hfault]
  · rw [ho, outcome_of_noFault (hown.trans hf), hdone hf]

/-- `Fx0A` with the same keys down: it waits, or takes the same key (R213). -/
theorem completed_ldVxK_congr {x : Reg} {s s' : State} {g : State → State}
    (hk : s'.leastKey = s.leastKey)
    (hwait : (s'.commit.setPc s'.pc).setKeyWait true = g ((s.commit.setPc s.pc).setKeyWait true))
    (htake : ∀ b, s'.commit.setV x b = g (s.commit.setV x b)) :
    completed (.ldVxK x) s' = g (completed (.ldVxK x) s) := by
  unfold completed
  rw [hk]
  cases s.leastKey
  · exact hwait
  · exact htake _

/-! The random byte (R42) -/

/-- `s` with another random byte for the `Cycle` in progress (log 1). -/
def State.withRandom (r : Option Byte) (k : Nat) (s : State) : State :=
  { s with rndIn := r, draws := k }

theorem completed_withRandom {i : Instr} (r : Option Byte) (k : Nat) (s : State)
    (h : ∀ x kk, i ≠ .rnd x kk) :
    completed i (s.withRandom r k) = (completed i s).withRandom r k := by
  cases i with
  | rnd x kk => exact absurd rfl (h x kk)
  | ldVxK x =>
    exact completed_ldVxK_congr (g := State.withRandom r k) rfl rfl fun _ => rfl
  | _ => rfl

/-- Settles O26: only the completion of `Cxkk` mentions the random byte. -/
theorem onlyRndReadsRandomByte : Obligations.OnlyRndReadsRandomByte := fun i s _ r k hi h =>
  exec_commutes (f := State.withRandom r k) (by cases i <;> rfl) (fun _ _ => rfl)
    (fun _ => completed_withRandom r k s hi) h

/-! The keypad (R32) -/

theorem completed_setKeys {i : Instr} (k : Vector Bool 16) (s : State)
    (h : ∀ x, i ≠ .skp x ∧ i ≠ .sknp x ∧ i ≠ .ldVxK x) :
    completed i (s.setKeys k) = (completed i s).setKeys k := by
  cases i with
  | skp x | sknp x | ldVxK x =>
    obtain ⟨hskp, hsknp, hldVxK⟩ := h x
    contradiction
  | _ => rfl

/-- The keypad is among the parts no instruction writes. -/
theorem outcome_keys (i : Instr) (s : State) : (outcome i s).keys = s.keys := by
  obtain ⟨-, -, -, -, -, -, -, hkeys, -⟩ := sameExcept_outcome i s
  exact hkeys (by cases i <;> simp [mayWrite])

/-- Settles O27: by the frame, and by the completions that do not mention the keypad. -/
theorem onlyKeyInstructionsReadKeypad : Obligations.OnlyKeyInstructionsReadKeypad := by
  refine fun i s t k h => ⟨?_, fun hi => ?_⟩
  · rw [eq_outcome_of_exec h, outcome_keys]
  · exact exec_commutes (f := fun s => s.setKeys k) (by cases i <;> rfl) (fun _ _ => rfl)
      (fun _ => completed_setKeys k s hi) h

/-! The sound timer (R29) -/

theorem completed_setSt {i : Instr} (b : Byte) (s : State) (h : ¬ ∃ x, i = .ldStVx x) :
    completed i (s.setSt b) = (completed i s).setSt b := by
  cases i with
  | ldStVx x => exact absurd ⟨x, rfl⟩ h
  | ldVxK x =>
    exact completed_ldVxK_congr (g := fun u => u.setSt b) rfl rfl fun _ => rfl
  | _ => rfl

/-- Settles O28: `Fx18` overwrites the sound timer whatever it held, and no other completion
mentions it. -/
theorem soundTimerIsNotRead : Obligations.SoundTimerIsNotRead := by
  intro i s t b h
  by_cases hi : ∃ x, i = .ldStVx x
  · rw [if_pos hi]
    obtain ⟨x, rfl⟩ := hi
    exact h
  · rw [if_neg hi]
    exact exec_commutes (f := fun s => s.setSt b) (by cases i <;> rfl) (fun _ _ => rfl)
      (fun _ => completed_setSt b s hi) h

/-! The status registers (R34, R35) -/

/-- `s` with another fault record and `key_wait`. -/
def State.withStatus (c : FaultCause) (op a : Word) (w : Bool) (s : State) : State :=
  { s with faultCause := c, faultOpcode := op, faultAddr := a, keyWait := w }

theorem ownFault_withStatus (i : Instr) (c : FaultCause) (op a : Word) (w : Bool) (s : State) :
    ownFault (s.withStatus c op a w) i = ownFault s i := by
  cases i <;> rfl

/-- Every completion writes `key_wait` anew and leaves the fault record (R97). -/
theorem completed_withStatus (i : Instr) (c : FaultCause) (op a : Word) (w : Bool) (s : State) :
    completed i (s.withStatus c op a w) =
      (completed i s).withStatus c op a (completed i s).keyWait := by
  cases i with
  | ldVxK x =>
    exact completed_ldVxK_congr (g := fun u => u.withStatus c op a u.keyWait) rfl rfl fun _ => rfl
  | _ => rfl

/-- Settles O30: fault entry overwrites all four, completion overwrites `key_wait` and keeps the
rest. -/
theorem statusRegistersAreNotRead : Obligations.StatusRegistersAreNotRead := by
  intro i s t c op a w h
  obtain rfl := eq_outcome_of_exec h
  have hown := ownFault_withStatus i c op a w s
  rcases outcome_cases i s with ⟨c', a', hf, ho⟩ | ⟨hf, ho⟩ <;> rw [ho]
  · refine ⟨fun hn => absurd (hf.symm.trans hn) nofun, fun _ => (exec_eq ..).trans ?_⟩
    exact congrArg _ (outcome_of_fault (hown.trans hf))
  · refine ⟨fun _ => (exec_eq ..).trans (congrArg _ ?_), fun hne => absurd hf hne⟩
    exact (outcome_of_noFault (hown.trans hf)).trans (completed_withStatus i c op a w s)

/-! Stale stack entries (R26) -/

/-- `s` with other stack entries, at the same depth. -/
def State.withEntries (k : Vector Word 16) (s : State) : State := { s with stack := k }

theorem ownFault_withEntries (i : Instr) (k : Vector Word 16) (s : State) :
    ownFault (s.withEntries k) i = ownFault s i := by
  cases i <;> rfl

theorem completed_withEntries {i : Instr} (k : Vector Word 16) (s : State)
    (h : Part.stack ∉ mayWrite i) :
    completed i (s.withEntries k) = (completed i s).withEntries k := by
  cases i with
  | ret | call => exact absurd (List.mem_singleton.2 rfl) h
  | ldVxK x =>
    exact completed_ldVxK_congr (g := State.withEntries k) rfl rfl fun _ => rfl
  | _ => rfl

/-- The two states differ in stale entries at most: the stack apart they are one state, and the
stacks agree below its `sp`. -/
def SameButStale (u t : State) : Prop :=
  u.withEntries t.stack = t ∧ ∀ j : Fin 16, j.val < t.sp.val → u.stack[j] = t.stack[j]

theorem sameButStale_withEntries {k : Vector Word 16} {s : State}
    (hk : ∀ j : Fin 16, j.val < s.sp.val → k[j] = s.stack[j]) : SameButStale (s.withEntries k) s :=
  ⟨rfl, hk⟩

/-- An instruction that leaves the stack carries the other entries along. -/
theorem outcome_withEntries {i : Instr} (k : Vector Word 16) (s : State)
    (h : Part.stack ∉ mayWrite i) : outcome i (s.withEntries k) = (outcome i s).withEntries k := by
  have hown := ownFault_withEntries i k s
  rcases outcome_cases i s with ⟨c, a, hf, ho⟩ | ⟨hf, ho⟩ <;> rw [ho]
  · exact outcome_of_fault (hown.trans hf)
  · exact (outcome_of_noFault (hown.trans hf)).trans (completed_withEntries k s h)

/-- The return reads the newest entry only, which is not stale (R122). -/
theorem sameButStale_ret {k : Vector Word 16} {s : State}
    (hk : ∀ j : Fin 16, j.val < s.sp.val → k[j] = s.stack[j]) :
    SameButStale (outcome .ret (s.withEntries k)) (outcome .ret s) := by
  by_cases h : s.sp.val = 0
  · rw [outcome_ret_empty h, outcome_ret_empty (s := s.withEntries k) h]
    exact sameButStale_withEntries hk
  · have hlt : s.sp.val - 1 < s.sp.val := Nat.sub_one_lt h
    have htop : k[s.sp.val - 1] = s.stack[s.sp.val - 1] := hk ⟨s.sp.val - 1, by omega⟩ hlt
    rw [outcome_ret_nonempty h, outcome_ret_nonempty (s := s.withEntries k) h]
    refine ⟨?_, fun j hj => hk j (Nat.lt_trans hj hlt)⟩
    exact congrArg ((completed .ret s).setPc ·) htop

/-- The call reads no entry, and the one it writes is the same (R121). -/
theorem sameButStale_call (nnn : Addr) {k : Vector Word 16} {s : State}
    (hk : ∀ j : Fin 16, j.val < s.sp.val → k[j] = s.stack[j]) :
    SameButStale (outcome (.call nnn) (s.withEntries k)) (outcome (.call nnn) s) := by
  by_cases h : s.sp.val = 16
  · rw [outcome_call_full nnn h, outcome_call_full (s := s.withEntries k) nnn h]
    exact sameButStale_withEntries hk
  · rw [outcome_call_notFull nnn h, outcome_call_notFull (s := s.withEntries k) nnn h]
    refine ⟨rfl, fun j hj => ?_⟩
    change (k.setIfInBounds s.sp.val s.pc1)[j.val] = (s.stack.setIfInBounds s.sp.val s.pc1)[j.val]
    rw [Vector.getElem_setIfInBounds, Vector.getElem_setIfInBounds]
    have hj' : j.val < min (s.sp.val + 1) 16 := hj
    split
    · rfl
    · exact hk j (by omega)

/-- Settles O29: the call and the return touch entries that are not stale, and every other
instruction none. -/
theorem staleStackEntriesAreNotRead : Obligations.StaleStackEntriesAreNotRead := by
  intro i s t k hk h
  obtain rfl := eq_outcome_of_exec h
  refine ⟨_, exec_eq i (s.withEntries k), ?_⟩
  by_cases hw : Part.stack ∈ mayWrite i
  · rcases stack_mem_mayWrite hw with rfl | ⟨nnn, rfl⟩
    · exact sameButStale_ret hk
    · exact sameButStale_call nnn hk
  · obtain ⟨hp, hs⟩ := outcome_stack s hw
    rw [outcome_withEntries k s hw]
    exact sameButStale_withEntries (by rwa [hp, hs])

end Sys2Proof.Machine
end

section
/-! SUPPORT. The decoder against the words (R82, R86 to R89): a decoded instruction encodes to its
word, a legal word decodes, and what the fetched word says about memory. -/

namespace Sys2Proof

/-- Category 0: the two words with `x = 0` (R87). -/
theorem encode_of_decode0 {x : Reg} {kk : Byte} {i : Instr} (h : decode0 x kk = .ok i) :
    encode i = wordXKK 0x0 x kk := by
  unfold decode0 at h
  split at h
  · next he =>
    obtain ⟨rfl, rfl⟩ := he
    cases h
    decide
  · split at h
    · next he =>
      obtain ⟨rfl, rfl⟩ := he
      cases h
      decide
    · cases h

theorem encode_of_decode8 {x y : Reg} {n : Nibble} {i : Instr} (h : decode8 x y n = .ok i) :
    encode i = wordXYN 0x8 x y n := by
  unfold decode8 at h
  split at h <;> cases h <;> rfl

theorem encode_of_decodeE {x : Reg} {kk : Byte} {i : Instr} (h : decodeE x kk = .ok i) :
    encode i = wordXKK 0xE x kk := by
  unfold decodeE at h
  split at h <;> cases h <;> rfl

theorem encode_of_decodeF {x : Reg} {kk : Byte} {i : Instr} (h : decodeF x kk = .ok i) :
    encode i = wordXKK 0xF x kk := by
  unfold decodeF at h
  split at h <;> cases h <;> rfl

/-- The categories the dispatch of R85 names, and the one it leaves. -/
theorem category_cases : ∀ c : Nibble,
    c ∈ ([0x0, 0x1, 0x2, 0x3, 0x4, 0x5, 0x6, 0x7, 0x8, 0x9, 0xA, 0xB, 0xC, 0xD, 0xE]
      : List Nibble) ∨ c = 0xF := by
  decide

/-- A decoded instruction encodes to its word (R86, R89). -/
theorem encode_of_decode {op : Word} {i : Instr} (h : decode op = .ok i) : encode i = op := by
  have hnnn := wordNNN_fields op
  have hxkk := wordXKK_fields op
  have hxyn := wordXYN_fields op
  unfold decode at h
  split at h
  case h_1 hc =>
    rw [hc] at hxkk
    exact (encode_of_decode0 h).trans hxkk
  case h_6 hc | h_10 hc =>
    split at h
    · next hn =>
      cases h
      rw [hc, hn] at hxyn
      exact hxyn
    · cases h
  case h_9 hc =>
    rw [hc] at hxyn
    exact (encode_of_decode8 h).trans hxyn
  case h_15 hc =>
    rw [hc] at hxkk
    exact (encode_of_decodeE h).trans hxkk
  case h_16 h0 h1 h2 h3 h4 h5 h6 h7 h8 h9 hA hB hC hD hE =>
    rw [(category_cases (category op)).resolve_left
      (by simpa using ⟨h0, h1, h2, h3, h4, h5, h6, h7, h8, h9, hA, hB, hC, hD, hE⟩)] at hxkk
    exact (encode_of_decodeF h).trans hxkk
  case h_14 hc =>
    cases h
    rw [hc] at hxyn
    exact hxyn
  case h_2 hc | h_3 hc | h_11 hc | h_12 hc =>
    cases h
    rw [hc] at hnnn
    exact hnnn
  case h_4 hc | h_5 hc | h_7 hc | h_8 hc | h_13 hc =>
    cases h
    rw [hc] at hxkk
    exact hxkk

/-- Where a row's mask covers a field, a word of the row has the field of the row's value (R86). -/
theorem extract_of_selects {r : Row} {op : Word} {start len : Nat} (h : r.selects op = true)
    (hm : r.mask.extractLsb' start len = BitVec.allOnes len) :
    op.extractLsb' start len = r.value.extractLsb' start len := by
  have hv : op &&& r.mask = r.value := by simpa [Row.selects] using h
  rw [← hv, BitVec.extractLsb'_and, hm, BitVec.and_allOnes]

theorem category_of_selects {r : Row} {op : Word} (h : r.selects op = true)
    (hm : category r.mask = 0xF) : category op = category r.value :=
  extract_of_selects h hm

theorem fieldN_of_selects {r : Row} {op : Word} (h : r.selects op = true)
    (hm : fieldN r.mask = 0xF) : fieldN op = fieldN r.value :=
  extract_of_selects h hm

theorem fieldKK_of_selects {r : Row} {op : Word} (h : r.selects op = true)
    (hm : fieldKK r.mask = 0xFF) : fieldKK op = fieldKK r.value :=
  extract_of_selects h hm

theorem fieldN_mask : fieldN 0xF00F = 0xF := by decide

theorem fieldKK_mask : fieldKK 0xF0FF = 0xFF := by decide

/-- Every mask covers the category (R85). -/
theorem category_row_mask (i : Instr) : category i.row.mask = 0xF := by
  cases i <;> simp [Instr.row, category]

/-- A word in the row of an instruction is not refused (R85, R86). -/
theorem decode_ne_error_of_selects {i : Instr} {op : Word} {e : Illegal}
    (h : i.row.selects op = true) : decode op ≠ .error e := by
  intro hd
  cases i with
  | cls =>
    have hop : op &&& 0xFFFF = 0x00E0 := by simpa [Row.selects, Instr.row] using h
    replace hop := BitVec.and_allOnes.symm.trans hop
    simp [hop, decode, decode0, category, fieldX, fieldKK] at hd
  | ret =>
    have hop : op &&& 0xFFFF = 0x00EE := by simpa [Row.selects, Instr.row] using h
    replace hop := BitVec.and_allOnes.symm.trans hop
    simp [hop, decode, decode0, category, fieldX, fieldKK] at hd
  | jp | call | seImm | sneImm | ldImm | addImm | ldI | jpV0 | rnd | drw =>
    have hc := category_of_selects h (category_row_mask _)
    rw [decode, hc] at hd
    simp [Instr.row, category] at hd
  | seReg | sneReg | ldReg | orReg | andReg | xorReg | addReg | sub | shr | subn | shl =>
    have hc := category_of_selects h (category_row_mask _)
    have hn := fieldN_of_selects h fieldN_mask
    rw [decode, hc, hn] at hd
    simp [Instr.row, category, fieldN, decode8] at hd
  | skp | sknp | ldVxDt | ldVxK | ldDtVx | ldStVx | addI | ldF | ldB | storeRegs | loadRegs =>
    have hc := category_of_selects h (category_row_mask _)
    have hk := fieldKK_of_selects h fieldKK_mask
    rw [decode, hc, hk] at hd
    simp [Instr.row, category, fieldKK, decodeE, decodeF] at hd

/-- Every row of the map is the row of an instruction. -/
theorem exists_row_of_mem {r : Row} (h : r ∈ opcodeMap) : ∃ i : Instr, i.row = r := by
  rcases List.mem_append.1 h with h | h <;> obtain ⟨i, -, hi⟩ := List.mem_map.1 h <;> exact ⟨i, hi⟩

/-- A word the decoder refuses is in no row: it is illegal (R88). -/
theorem legalWord_of_error {op : Word} {e : Illegal} (h : decode op = .error e) :
    legalWord op = false := by
  refine List.any_eq_false.2 fun r hr hs => ?_
  obtain ⟨i, rfl⟩ := exists_row_of_mem hr
  exact decode_ne_error_of_selects hs h

/-- The word of format `x`, as a number (R81). -/
theorem wordXKK_toNat (c : Nibble) (x : Reg) (kk : Byte) :
    (wordXKK c x kk).toNat = c.toNat * 0x1000 + x.val * 0x100 + kk.toNat := by
  have hc := category_toNat (wordXKK c x kk)
  have hx := fieldX_val (wordXKK c x kk)
  have hk := fieldKK_toNat (wordXKK c x kk)
  rw [category_wordXKK] at hc
  rw [fieldX_wordXKK] at hx
  rw [fieldKK_wordXKK] at hk
  omega

/-- The words 1000 to 1FFF are the jumps, to their low twelve bits (R82, R124). -/
theorem decode_jp {op : Word} {a : Nat} (ha : a < 0x1000) (h : op.toNat = 0x1000 + a) :
    ∃ nnn : Addr, decode op = .ok (.jp nnn) ∧ nnn.toNat = a := by
  have hc : category op = 0x1 := by
    refine BitVec.eq_of_toNat_eq ?_
    rw [category_toNat, h]
    show (0x1000 + a) / 0x1000 = 1
    omega
  refine ⟨fieldNNN op, by rw [decode, hc]; rfl, ?_⟩
  rw [fieldNNN_toNat, h]
  omega

end Sys2Proof
end

section
/-! SUPPORT. The invariant, part by part: what each event, fault entry and completion keeps. -/

namespace Sys2Proof.Machine

/-- Settles O18: nothing is listed in memory, and neither `halted` nor `key_wait` is set. -/
theorem resetMeetsInvariant : Obligations.ResetMeetsInvariant where
  mem_wf := State.reset_mem_wf
  pc_bound := by decide
  returns := by decide
  running := fun _ => ⟨rfl, rfl, rfl⟩
  halted := nofun
  waiting := nofun

/-! The events other than `Cycle` (R41, R43 to R45). The invariant does not speak of the keypad, the
timers and the host's inputs. -/

theorem Inv.setEvents {s : State} (h : Inv s) (es : List Event) : Inv (s.setEvents es) :=
  { h with }

theorem Inv.setKeys {s : State} (h : Inv s) (k : Vector Bool 16) : Inv (s.setKeys k) :=
  { h with }

theorem Inv.onSetKeys {s : State} (h : Inv s) (k : Word) : Inv (s.onSetKeys k) :=
  h.setKeys _

theorem Inv.onReset (s : State) : Inv s.onReset :=
  { resetMeetsInvariant with }

theorem Inv.onTick {s : State} (h : Inv s) : Inv s.onTick := by
  unfold State.onTick
  split
  · exact h
  · exact { h with }

/-- An admitted image lies inside the array, and comes before any `Cycle`, so neither a fault record
nor a key wait is there to be overwritten (R45). -/
theorem Inv.onLoadRom {s : State} (h : Inv s) (image : List Byte) : Inv (s.onLoadRom image) := by
  rcases s.onLoadRom_cases image with ⟨hfit, hc, ho⟩ | ⟨-, ho⟩ <;> rw [ho]
  · have hroom : Config.romBase + image.length ≤ Config.memSize := by
      simp only [Config.romBase, Config.memSize, Config.maxRom] at *
      omega
    refine { h with mem_wf := Memory.wf_writeBytes h.mem_wf hroom, halted := fun hh => ?_,
                    waiting := fun hw => ?_ }
    · obtain ⟨-, hcy, -⟩ := h.halted hh
      cases hcy.symm.trans hc
    · obtain ⟨hcy, -⟩ := h.waiting hw
      cases hcy.symm.trans hc
  · exact h

theorem Inv.beginCycle {s : State} (h : Inv s) (r : Option Byte) : Inv (s.beginCycle r) := by
  refine { h with halted := fun hh => ?_, waiting := fun hw => ?_ }
  · obtain ⟨hrec, -, hk⟩ := h.halted hh
    exact ⟨hrec, rfl, hk⟩
  · obtain ⟨-, hword⟩ := h.waiting hw
    exact ⟨rfl, hword⟩

/-! Fault entry (R231, R232) -/

/-- Fault entry keeps the invariant where what it records is what R231 says. -/
theorem Inv.enterFault {s : State} {op : Word} {c : FaultCause} {a : Word} (h : Inv s)
    (hc : s.cycled = true) (hr : FaultRecorded (s.enterFault op c a)) :
    Inv (s.enterFault op c a) :=
  { h with
    running := nofun
    halted := fun _ => ⟨hr, hc, rfl⟩
    waiting := nofun }

theorem dataFaultAddr_toNat (s : State) : (dataFaultAddr s).toNat = max s.idx.toNat 0x1000 := by
  have := s.idx.isLt
  rw [dataFaultAddr, BitVec.toNat_ofNat]
  omega

/-- An instruction's own fault records what R231 says, where its word is the one at `pc`. -/
theorem faultRecorded_of_ownFault {i : Instr} {s : State} {c : FaultCause} {a : Word}
    (hw : (encode i).toNat = wordAtPc s) (hf : ownFault s i = some (c, a)) :
    FaultRecorded (s.enterFault (encode i) c a) := by
  cases i with
  | ret | call =>
    obtain ⟨hsp, rfl, rfl⟩ : _ ∧ _ ∧ _ := by simpa [ownFault] using hf
    exact ⟨hw, by simp [hsp], rfl⟩
  | drw | ldB | storeRegs | loadRegs =>
    obtain ⟨-, rfl, rfl⟩ : _ ∧ _ ∧ _ := by simpa [ownFault] using hf
    exact ⟨hw, dataFaultAddr_toNat s⟩
  | skp x | sknp x =>
    by_cases hk : 0xF < s.v[x].toNat
    · cases (if_pos hk).symm.trans hf
      have hlt := (s.v[x]).isLt
      have ha : (BitVec.ofNat 16 s.v[x].toNat).toNat = s.v[x].toNat := Nat.mod_eq_of_lt (by omega)
      exact ⟨hw, hk.trans_eq ha.symm, ha.trans_le (by omega)⟩
    · cases (if_neg hk).symm.trans hf
  | _ => cases hf

/-! Completion, part by part (R24, R35, R60, R123) -/

/-- From a fetchable `pc` the next word's address does not wrap (R92; log 13). -/
theorem State.pc1_toNat {s : State} (h : s.pc.toNat ≤ 0xFFE) : s.pc1.toNat = s.pc.toNat + 2 := by
  rw [State.pc1, BitVec.toNat_add]
  show (s.pc.toNat + 2) % 65536 = _
  omega

theorem State.skipped_pc_le {s : State} (c : Bool) (h : s.pc.toNat ≤ 0xFFE) :
    (s.skipped c).pc.toNat ≤ s.pc.toNat + 4 := by
  have h1 := s.pc1_toNat h
  cases c
  · show s.pc1.toNat ≤ _
    omega
  · show (s.pc1 + 2).toNat ≤ _
    rw [BitVec.toNat_add]
    show (s.pc1.toNat + 2) % 65536 ≤ _
    omega

/-- "The largest value an instruction can write is 0x10FE" (R24). -/
theorem completed_pc_le {i : Instr} {s : State} (h : Inv s) (hp : s.pc.toNat ≤ 0xFFE)
    (hf : ownFault s i = none) : (completed i s).pc.toNat ≤ 0x10FE := by
  have h1 := s.pc1_toNat hp
  cases i with
  | jp nnn | call nnn =>
    show (zextAddr nnn).toNat ≤ _
    have := nnn.isLt
    rw [zextAddr_toNat]
    omega
  | jpV0 nnn =>
    show (s.computedTarget nnn).toNat ≤ _
    have := nnn.isLt
    have := s.v[(0 : Reg)].isLt
    rw [s.computedTarget_toNat]
    omega
  | ret =>
    have hsp : s.sp.val ≠ 0 := by simpa [ownFault] using hf
    have hr := h.returns ⟨s.sp.val - 1, by omega⟩ (Nat.sub_one_lt hsp)
    exact Nat.le_trans hr (by decide)
  | seImm | sneImm | seReg | sneReg | skp | sknp =>
    exact Nat.le_trans (s.skipped_pc_le _ hp) (by omega)
  | ldVxK x =>
    unfold completed
    cases s.leastKey
    · exact h.pc_bound
    · show s.pc1.toNat ≤ _
      omega
  | _ =>
    show s.pc1.toNat ≤ _
    omega

/-- An instruction without stores leaves memory's list as it is (R65). -/
theorem completed_mem {i : Instr} (s : State) (h : Part.mem ∉ mayWrite i) :
    (completed i s).mem = s.mem := by
  cases i with
  | ldB | storeRegs => exact absurd (List.mem_singleton.2 rfl) h
  | ldVxK x =>
    unfold completed
    cases s.leastKey <;> rfl
  | _ => simp [completed, State.skipped]

/-- Stores that pass the bounds check keep memory's form (R60, R62). -/
theorem completed_mem_wf {i : Instr} {s : State} (h : s.mem.wf) (hf : ownFault s i = none) :
    (completed i s).mem.wf := by
  cases i with
  | ldB x =>
    have hb : ¬ 0xFFF < s.idx.toNat + 2 := by simpa [ownFault] using hf
    refine Memory.wf_writeBytes h ?_
    rw [bcdDigits_length, State.dataAddr, Config.memSize]
    omega
  | storeRegs x =>
    have hb : ¬ 0xFFF < s.idx.toNat + x.val := by simpa [ownFault] using hf
    refine Memory.wf_writeBytes h ?_
    rw [s.regsUpTo_length, State.dataAddr, Config.memSize]
    omega
  | _ =>
    rw [completed_mem s (by simp [mayWrite])]
    exact h

/-- The one return address an instruction adds is that of the word after the call (R125). -/
theorem completed_returns {i : Instr} {s : State} (h : Inv s) (hp : s.pc.toNat ≤ 0xFFE)
    (j : Fin 16) (hj : j.val < (completed i s).sp.val) :
    (completed i s).stack[j].toNat ≤ 0x1000 := by
  by_cases hw : Part.stack ∈ mayWrite i
  · rcases stack_mem_mayWrite hw with rfl | ⟨nnn, rfl⟩
    · have hj' : j.val < s.sp.val - 1 := hj
      exact h.returns j (by omega)
    · have hj' : j.val < min (s.sp.val + 1) 16 := hj
      show ((s.stack.setIfInBounds s.sp.val s.pc1)[j.val]).toNat ≤ _
      rw [Vector.getElem_setIfInBounds]
      split
      · rw [s.pc1_toNat hp]
        omega
      · exact h.returns j (by omega)
  · obtain ⟨-, -, hstack, -⟩ := sameExcept_completed i s
    obtain ⟨hsp, hk⟩ := hstack (by simpa using hw)
    rw [hsp] at hj
    rw [hk]
    exact h.returns j hj

/-- Only an `Fx0A` that found no key leaves `key_wait` set, with `pc` and memory as they were
(R97, R213). -/
theorem completed_waiting {i : Instr} {s : State} (h : (completed i s).keyWait = true) :
    (∃ x, i = .ldVxK x) ∧ (completed i s).pc = s.pc ∧ (completed i s).mem = s.mem := by
  cases i with
  | ldVxK x =>
    refine ⟨⟨x, rfl⟩, ?_⟩
    unfold completed at h ⊢
    cases hk : s.leastKey <;> rw [hk] at h
    · exact ⟨rfl, rfl⟩
    · cases h
  | _ => cases h

/-- The word of an `Fx0A` (R86). -/
theorem encode_ldVxK_toNat (x : Reg) : (encode (.ldVxK x)).toNat = 0xF00A + 0x100 * x.val := by
  rw [encode, wordXKK_toNat]
  show 0xF * 0x1000 + x.val * 0x100 + 0x0A = _
  omega

theorem wordAtPc_congr {s t : State} (hp : t.pc = s.pc) (hm : t.mem = s.mem) :
    wordAtPc t = wordAtPc s := by
  rw [wordAtPc, wordAtPc, hp, hm]

/-- Completion keeps the invariant, where the instruction's word is the one at `pc`. -/
theorem Inv.completed {i : Instr} {s : State} (h : Inv s) (hh : s.halted = false)
    (hc : s.cycled = true) (hp : s.pc.toNat ≤ 0xFFE) (hw : (encode i).toNat = wordAtPc s)
    (hf : ownFault s i = none) : Inv (completed i s) := by
  obtain ⟨-, -, -, -, -, -, -, -, hfault, hcycled, -⟩ := sameExcept_completed i s
  obtain ⟨hhalt, hcause, hop, haddr⟩ := hfault (by cases i <;> simp [mayWrite])
  refine ⟨completed_mem_wf h.mem_wf hf, completed_pc_le h hp hf, completed_returns h hp,
    fun _ => ?_, fun ht => ?_, fun hk => ?_⟩
  · rw [hcause, hop, haddr]
    exact h.running hh
  · rw [hhalt, hh] at ht
    cases ht
  · obtain ⟨⟨x, rfl⟩, hpc, hmem⟩ := completed_waiting hk
    refine ⟨hcycled.trans hc, by rwa [hpc], x, ?_⟩
    rw [wordAtPc_congr hpc hmem, ← hw, encode_ldVxK_toNat]

/-- The fetched word is the one at `pc` (R63, R91). -/
theorem wordAtPc_of_fetch {s : State} {op : Word} (h : s.fetch = some op) :
    op.toNat = wordAtPc s := by
  rcases s.fetch_cases with ⟨-, hf⟩ | ⟨-, hf⟩
  · cases hf.symm.trans h
  · obtain rfl := Option.some.inj (hf.symm.trans h)
    exact wordOfBytes_toNat ..

/-- A decoded instruction's word is the fetched one, so its outcome keeps the invariant. -/
theorem Inv.outcome {i : Instr} {s : State} (h : Inv s) (hh : s.halted = false)
    (hc : s.cycled = true) (hp : s.pc.toNat ≤ 0xFFE) (hw : (encode i).toNat = wordAtPc s) :
    Inv (outcome i s) := by
  rcases outcome_cases i s with ⟨c, a, hf, ho⟩ | ⟨hf, ho⟩ <;> rw [ho]
  · exact h.enterFault hc (faultRecorded_of_ownFault hw hf)
  · exact h.completed hh hc hp hw hf

/-- A `Cycle` keeps the invariant, in each of its four cases (R235). -/
theorem Inv.cycle {s t : State} (h : Inv s) (r : Option Byte) (ht : cycle r s = .next t) :
    Inv t := by
  have hb := h.beginCycle r
  rcases cycle_cases r s with
    ⟨-, hcy⟩ | ⟨-, hp, hcy⟩ | ⟨hh, hp, op, hop, ⟨e, hd, hcy⟩ | ⟨i, hd, hcy⟩⟩
  · obtain rfl := Host.Outcome.next.inj (hcy.symm.trans ht)
    exact h
  · obtain rfl := Host.Outcome.next.inj (hcy.symm.trans ht)
    exact hb.enterFault rfl ⟨hp, rfl, rfl⟩
  · obtain rfl := Host.Outcome.next.inj (hcy.symm.trans ht)
    exact hb.enterFault rfl ⟨wordAtPc_of_fetch hop, legalWord_of_error hd, rfl⟩
  · obtain rfl := eq_outcome_of_exec (hcy.symm.trans ht)
    have hw : (encode i).toNat = wordAtPc s := by
      rw [encode_of_decode hd]
      exact wordAtPc_of_fetch hop
    exact hb.outcome hh rfl hp hw

/-- Every event keeps the invariant (R40). -/
theorem Inv.deliver {s t : State} (h : Inv s) (e : Event) (ht : deliver e s = .next t) : Inv t := by
  cases e with
  | cycle r => exact h.cycle (some r) ht
  | reset =>
    obtain rfl := Host.Outcome.next.inj ht
    exact Inv.onReset s
  | loadRom image =>
    obtain rfl := Host.Outcome.next.inj ht
    exact h.onLoadRom image
  | setKeys k =>
    obtain rfl := Host.Outcome.next.inj ht
    exact h.onSetKeys k
  | tick =>
    obtain rfl := Host.Outcome.next.inj ht
    exact h.onTick

/-- Settles O19: a step is a `Cycle` or the oldest event, and each keeps the invariant. -/
theorem stepKeepsInvariant : Obligations.StepKeepsInvariant := by
  intro s t h ht
  rcases step_cases s with ⟨-, hs⟩ | ⟨e, es, -, hs⟩
  · exact h.cycle none (hs.symm.trans ht)
  · exact (h.setEvents es).deliver e (hs.symm.trans ht)

end Sys2Proof.Machine
end

section
/-! SUPPORT. The events of R40 as transitions of their own, the reset values (R38), and the run that
has ended well (R49). -/

namespace Sys2Proof.Machine

/-- Settles O6: a step takes the first event off the schedule and delivers it. -/
theorem stepDeliversOldestEvent : Obligations.StepDeliversOldestEvent := by
  intro s e es h
  rcases step_cases s with ⟨hn, -⟩ | ⟨e', es', hc, hs⟩
  · cases hn.symm.trans h
  · cases hc.symm.trans h
    exact hs

theorem sameExcept_setKeys (s : State) (k : Vector Bool 16) :
    SameExcept [.keys] s (s.setKeys k) := by
  simp [SameExcept]

/-- Key `i` of the new keypad is bit `i` (R44). -/
theorem onSetKeys_keys (s : State) (k : Word) (i : Fin 16) :
    (s.onSetKeys k).keys[i] = k.getLsbD i.val := by
  rw [State.onSetKeys, State.setKeys_keys, Fin.getElem_fin, Vector.getElem_ofFn]

/-- Settles O13: `SetKeys` replaces the keypad by the sixteen bits. -/
theorem setKeysWritesKeypadOnly : Obligations.SetKeysWritesKeypadOnly := fun s k =>
  ⟨s.onSetKeys k, rfl, onSetKeys_keys s k, s.setKeys_pc _, s.setKeys_keyWait _,
    sameExcept_setKeys s _⟩

/-- Settles O15: `Reset` keeps the model's own three fields and nothing else. -/
theorem resetEventGivesResetState : Obligations.ResetEventGivesResetState :=
  fun s => ⟨s.onReset, rfl, rfl⟩

/-- Outside the font the reset contents are 0 (R31, R38). -/
theorem resetByte_outside {a : Nat} (h : a < 0x050 ∨ 0x09F < a) : resetByte a = 0 := by
  unfold resetByte fontBase
  split
  · rfl
  · have hlen : font.length = 80 := rfl
    exact List.getD_eq_default _ _ (by omega)

/-- Settles O16: the parts of the reset state one by one, and memory as its reset contents. -/
theorem resetValues : Obligations.ResetValues := by
  refine ⟨by decide, rfl, rfl, rfl, by decide, rfl, rfl, blankDisplay_pixel, by decide, rfl, rfl,
    rfl, rfl, rfl, fun a ha => resetByte_outside ha, by decide⟩

/-- A `Cycle` that is not halted marks itself performed (R42, R45; log 5). -/
theorem cycled_of_cycle {s t : State} {r : Option Byte} (hh : s.halted = false)
    (h : cycle r s = .next t) : t.cycled = true := by
  rcases cycle_cases r s with ⟨hh', -⟩ | ⟨-, -, hc⟩ | ⟨-, -, op, -, ⟨e, -, hc⟩ | ⟨i, -, hc⟩⟩
  · cases hh.symm.trans hh'
  · obtain rfl := Host.Outcome.next.inj (hc.symm.trans h)
    rfl
  · obtain rfl := Host.Outcome.next.inj (hc.symm.trans h)
    rfl
  · obtain rfl := eq_outcome_of_exec (hc.symm.trans h)
    obtain ⟨-, -, -, -, -, -, -, -, -, hcycled, -⟩ := sameExcept_outcome i (s.beginCycle r)
    exact hcycled

/-- An admitted image is read back at 0x200 upwards (R45). -/
theorem read_image {m : Memory} {image : List Byte} {k : Nat} (hk : k < image.length) :
    (m.writeBytes Config.romBase image).read (0x200 + k) = image.getD k 0 := by
  rw [Memory.read_writeBytes, Config.romBase, if_pos (Nat.le_add_right ..), Nat.add_sub_cancel_left,
    List.getD_eq_getElem _ _ hk, List.getD_eq_getElem _ _ hk]

/-- Settles O14: an image is written or rejected as R45 says, and its second condition is the bit a
`Cycle` sets and `Reset` clears. -/
theorem loadRomWritesImageOrNothing : Obligations.LoadRomWritesImageOrNothing := by
  refine ⟨fun s image => ⟨s.onLoadRom image, rfl, ?_⟩, fun s t r => cycled_of_cycle, ?_⟩
  · rcases s.onLoadRom_cases image with ⟨hfit, hc, ho⟩ | ⟨hno, ho⟩ <;> rw [ho]
    · refine ⟨fun _ => ⟨fun k hk => read_image hk, fun a ha => ?_, rfl, rfl, ?_⟩,
        fun hno => absurd ⟨hfit, hc⟩ hno⟩
      · exact Memory.read_writeBytes_outside ha
      · simp [SameExcept]
    · exact ⟨fun hyes => absurd hyes hno, fun _ => rfl⟩
  · intro s t h
    obtain rfl := Host.Outcome.next.inj h
    rfl

/-- The word of a run that has ended well decodes to the jump to its own address (R49, R124). -/
theorem EndedWell.fetch_self_jump {s : State} (h : EndedWell s) :
    ∃ op nnn, s.fetch = some op ∧ decode op = .ok (.jp nnn) ∧ zextAddr nnn = s.pc := by
  obtain ⟨-, hp, hw⟩ := h
  rcases s.fetch_cases with ⟨hp', -⟩ | ⟨-, hf⟩
  · omega
  · obtain ⟨nnn, hd, hn⟩ := decode_jp (by omega) ((wordAtPc_of_fetch hf).trans hw)
    exact ⟨_, nnn, hf, hd, BitVec.eq_of_toNat_eq ((zextAddr_toNat nnn).trans hn)⟩

/-- Settles O21: the `Cycle` runs the self-jump, which writes `pc` as it was. -/
theorem selfJumpStaysEnded : Obligations.SelfJumpStaysEnded := by
  intro s r h
  obtain ⟨op, nnn, hf, hd, hn⟩ := h.fetch_self_jump
  have hpc : (completed (.jp nnn) (s.beginCycle r)).pc = s.pc := hn
  obtain ⟨hh, hp, hw⟩ := h
  refine ⟨completed (.jp nnn) (s.beginCycle r), cycle_exec r hh hf hd, ⟨hh, ?_, ?_⟩, hpc, rfl, ?_⟩
  · rwa [hpc]
  · rwa [wordAtPc_congr hpc rfl, hpc]
  · simp [SameExcept, completed]

end Sys2Proof.Machine
end

section
/-! PROOFS. What `Fx55` stores is what a later fetch reads (spec/20_memory.md, R63, R73). -/

namespace Sys2Proof.Machine

/-- A store whose last address is inside memory completes (R62, R174). -/
theorem outcome_storeRegs_inBounds {x : Reg} {s : State} (h : s.idx.toNat + x.val ≤ 0xFFF) :
    outcome (.storeRegs x) s = completed (.storeRegs x) s :=
  outcome_of_noFault (if_neg (Nat.not_lt.2 h) : ownFault s (.storeRegs x) = _)

/-- Memory after `Fx55` holds `V[r]` at `I + r` (R174). -/
theorem read_completed_storeRegs {x r : Reg} (s : State) (h : r ≤ x) :
    (completed (.storeRegs x) s).mem.read (s.idx.toNat + r.val) = s.v[r] := by
  show (s.mem.writeBytes s.idx.toNat (s.regsUpTo x)).read _ = _
  rw [Memory.read_writeBytes, if_pos (Nat.le_add_right ..), Nat.add_sub_cancel_left,
    s.regsUpTo_getD x r _ h]

/-- Settles O51: the two bytes at `pc` are the ones stored for `r` and `r + 1`, the first the high
one. -/
theorem storedBytesAreFetched : Obligations.StoredBytesAreFetched := by
  intro x r q s hroom hq hqx
  refine ⟨completed (.storeRegs x) s, ?_, fun u hmem hpc => ?_⟩
  · rw [exec_eq, outcome_storeRegs_inBounds hroom]
  · have hqx' : q.val ≤ x.val := hqx
    have hrx : r ≤ x := Fin.le_def.2 (by omega)
    have hhi : u.mem.read u.pc.toNat = s.v[r] := by
      rw [hmem, hpc, read_completed_storeRegs s hrx]
    have hlo : u.mem.read (u.pc.toNat + 1) = s.v[q] := by
      rw [hmem, hpc, Nat.add_assoc, ← hq, read_completed_storeRegs s hqx]
    rcases u.fetch_cases with ⟨hp, -⟩ | ⟨-, hf⟩
    · omega
    · rw [hhi, hlo] at hf
      exact ⟨_, hf, wordOfBytes_toNat ..⟩

end Sys2Proof.Machine
end

section
/-! PROOFS. Decoding and encoding are inverse to each other (spec/30_encoding.md, R80 to R89). -/

namespace Sys2Proof

/-- Decoding undoes encoding: the dispatch of R85 on the fields each format puts in place (R81). -/
theorem decode_encode (i : Instr) : decode (encode i) = .ok i := by
  cases i with
  | cls | ret => rfl
  | jp | call | ldI | jpV0 | seImm | sneImm | ldImm | addImm | rnd | seReg | sneReg | drw =>
    simp [encode, decode]
  | ldReg | orReg | andReg | xorReg | addReg | sub | shr | subn | shl =>
    simp [encode, decode, decode8]
  | skp | sknp => simp [encode, decode, decodeE]
  | ldVxDt | ldVxK | ldDtVx | ldStVx | addI | ldF | ldB | storeRegs | loadRegs =>
    simp [encode, decode, decodeF]

/-- A byte stream is decoded by its first two bytes, and the rest is left over (R80). -/
theorem decodeBytes_cons_cons (hi lo : Byte) (rest : List Byte) :
    decodeBytes (hi :: lo :: rest) = (decode (wordOfBytes hi lo)).map (·, rest) := by
  rw [decodeBytes]
  cases decode (wordOfBytes hi lo) <;> rfl

/-- Settles O2: the two bytes of an instruction are those of its word, which decodes to it. -/
theorem decodeOfEncode : Obligations.DecodeOfEncode := by
  refine fun i rest => ⟨decode_encode i, ?_⟩
  show decodeBytes (_ :: _ :: rest) = _
  rw [decodeBytes_cons_cons, wordOfBytes_bytesOfWord, decode_encode]
  rfl

/-- Settles O3: the fields a decoded instruction takes from its word put the word together again. -/
theorem encodeOfDecode : Obligations.EncodeOfDecode :=
  fun _ _ => encode_of_decode

/-- Settles O1: each word is the encoding of its instruction. -/
theorem sampleWordsDecode : Obligations.SampleWordsDecode :=
  ⟨decode_encode .cls, decode_encode .ret, decode_encode (.jp 0xABC),
    decode_encode (.seImm 10 0x42), decode_encode (.subn 1 2), decode_encode (.jpV0 0x300),
    decode_encode (.rnd 3 0x0F), decode_encode (.drw 1 2 15), decode_encode (.sknp 5),
    decode_encode (.ldVxK 3), decode_encode (.loadRegs 2)⟩

end Sys2Proof
end

section
/-! PROOFS. Decoding is the opcode map (spec/30_encoding.md, R86, R93). -/

namespace Sys2Proof

/-- The word of an instruction lies in its row: by the mask of its format (R86). -/
theorem row_selects_encode (i : Instr) : i.row.selects (encode i) = true := by
  cases i with
  | cls => exact Laws.Encoding.cls
  | ret => exact Laws.Encoding.ret
  | jp | call | ldI | jpV0 | seImm | sneImm | ldImm | addImm | rnd | drw =>
    exact selects_of_masked (wordNNN_mask _ _)
  | seReg | sneReg | ldReg | orReg | andReg | xorReg | addReg | sub | shr | subn | shl =>
    exact selects_of_masked (wordXYN_mask _ _ _ _)
  | skp | sknp | ldVxDt | ldVxK | ldDtVx | ldStVx | addI | ldF | ldB | storeRegs | loadRegs =>
    exact selects_of_masked (wordXKK_mask _ _ _)

theorem selects_iff {r : Row} {op : Word} : r.selects op = true ↔ op &&& r.mask = r.value :=
  beq_iff_eq

/-- The map has a row for every instruction (R86). -/
theorem row_mem_opcodeMap (i : Instr) : i.row ∈ opcodeMap := by
  cases i <;> simp [opcodeMap, opcodeMapLow, opcodeMapHigh, Instr.row]

/-- Two rows that agree on the bits both their masks cover are one row (R86). -/
theorem row_eq_of_overlap : ∀ r ∈ opcodeMap, ∀ q ∈ opcodeMap,
    r.value &&& q.mask = q.value &&& r.mask → r = q := by
  decide

/-- At most one row of the map selects a word (R93). -/
theorem row_unique {op : Word} {r q : Row} (hr : r ∈ opcodeMap) (hq : q ∈ opcodeMap)
    (hrs : op &&& r.mask = r.value) (hqs : op &&& q.mask = q.value) : r = q := by
  refine row_eq_of_overlap r hr q hq ?_
  rw [← hrs, ← hqs, BitVec.and_assoc, BitVec.and_assoc, BitVec.and_comm r.mask]

/-- An instruction's operands are the fields of its word (R81, R82). -/
theorem operandsOf_encode (i : Instr) : Machine.OperandsOf (encode i) i := by
  cases i with
  | cls | ret => trivial
  | _ =>
    simp only [Machine.OperandsOf, encode, ← fieldX_val, ← fieldY_val, ← fieldN_toNat,
      ← fieldKK_toNat, ← fieldNNN_toNat, fieldX_wordXKK, fieldKK_wordXKK, fieldX_wordXYN,
      fieldY_wordXYN, fieldN_wordXYN, fieldNNN_wordNNN, and_self]

/-- Settles O4: a decoded word is the encoding of its instruction, which lies in that one row. -/
theorem decodeIsTheOneSelectedRow : Obligations.DecodeIsTheOneSelectedRow := by
  intro op
  have hrow : ∀ i, decode op = .ok i → op &&& i.row.mask = i.row.value := fun i h => by
    obtain rfl := encode_of_decode h
    exact selects_iff.1 (row_selects_encode i)
  refine ⟨fun i h => ⟨row_mem_opcodeMap i, hrow i h, ?_, fun r hr hs => ?_⟩, fun hno => ?_, ?_⟩
  · obtain rfl := encode_of_decode h
    exact operandsOf_encode i
  · exact row_unique hr (row_mem_opcodeMap i) hs (hrow i h)
  · cases h : decode op with
    | error e => exact ⟨e, rfl⟩
    | ok i => exact absurd (hrow i h) (hno _ (row_mem_opcodeMap i))
  · rintro ⟨e, he⟩ r hr hs
    obtain ⟨i, rfl⟩ := exists_row_of_mem hr
    exact decode_ne_error_of_selects (selects_iff.2 hs) he

end Sys2Proof
end

section
/-! PROOFS. The words the decoder refuses, category by category (spec/30_encoding.md, R88). -/

namespace Sys2Proof

/-- When a word of category 0 has the pattern of `00E0` and `00EE`, by its fields (R81, R86). -/
theorem eq_word0_iff {op : Word} (hc : category op = 0x0) (kk : Byte) :
    op = wordXKK 0x0 0 kk ↔ fieldX op = 0 ∧ fieldKK op = kk := by
  constructor
  · rintro rfl
    exact ⟨fieldX_wordXKK .., fieldKK_wordXKK ..⟩
  · rintro ⟨hx, hk⟩
    rw [← wordXKK_fields op, hc, hx, hk]

/-- Category 0: every word but the two (R88). -/
theorem decode0_error_iff {op : Word} (hc : category op = 0x0) :
    (∃ e, decode0 (fieldX op) (fieldKK op) = .error e) ↔ op ≠ 0x00E0 ∧ op ≠ 0x00EE := by
  have hcls : op = 0x00E0 ↔ fieldX op = 0 ∧ fieldKK op = 0xE0 := eq_word0_iff hc 0xE0
  have hret : op = 0x00EE ↔ fieldX op = 0 ∧ fieldKK op = 0xEE := eq_word0_iff hc 0xEE
  rw [ne_eq, ne_eq, hcls, hret]
  unfold decode0
  split
  · simp [*]
  · split <;> simp [*]

/-- Category 8: the seven keys without a row (R88). -/
theorem decode8_error_iff (x y : Reg) (n : Nibble) :
    (∃ e, decode8 x y n = .error e) ↔ n.toNat ∈ [0x8, 0x9, 0xA, 0xB, 0xC, 0xD, 0xF] := by
  have hkeys : ∀ n : Nibble, n ∈ ([0x0, 0x1, 0x2, 0x3, 0x4, 0x5, 0x6, 0x7, 0xE] : List Nibble) ∨
      n.toNat ∈ [0x8, 0x9, 0xA, 0xB, 0xC, 0xD, 0xF] := by decide
  unfold decode8
  split
  case h_10 h0 h1 h2 h3 h4 h5 h6 h7 hE =>
    have hn := (hkeys n).resolve_left (by simpa using ⟨h0, h1, h2, h3, h4, h5, h6, h7, hE⟩)
    exact iff_of_true ⟨_, rfl⟩ hn
  all_goals simp

/-- Category E: every key but the two (R88). -/
theorem decodeE_error_iff (x : Reg) (kk : Byte) :
    (∃ e, decodeE x kk = .error e) ↔ kk.toNat ≠ 0x9E ∧ kk.toNat ≠ 0xA1 := by
  unfold decodeE
  split
  case h_3 h9E hA1 =>
    simpa [← BitVec.toNat_inj] using And.intro h9E hA1
  all_goals simp

/-- Category F: every key but the nine (R88). -/
theorem decodeF_error_iff (x : Reg) (kk : Byte) :
    (∃ e, decodeF x kk = .error e) ↔
      kk.toNat ∉ [0x07, 0x0A, 0x15, 0x18, 0x1E, 0x29, 0x33, 0x55, 0x65] := by
  unfold decodeF
  split
  case h_10 h07 h0A h15 h18 h1E h29 h33 h55 h65 =>
    have hkk : kk ∉ ([0x07, 0x0A, 0x15, 0x18, 0x1E, 0x29, 0x33, 0x55, 0x65] : List Byte) := by
      simpa using ⟨h07, h0A, h15, h18, h1E, h29, h33, h55, h65⟩
    simpa [← BitVec.toNat_inj] using hkk
  all_goals simp

/-- A word is refused exactly where R88 lists it. -/
theorem decode_error_iff (op : Word) : (∃ e, decode op = .error e) ↔
    (op.toNat / 0x1000 = 0x0 ∧ op ≠ 0x00E0 ∧ op ≠ 0x00EE) ∨
    ((op.toNat / 0x1000 = 0x5 ∨ op.toNat / 0x1000 = 0x9) ∧ op.toNat % 0x10 ≠ 0) ∨
    (op.toNat / 0x1000 = 0x8 ∧ op.toNat % 0x10 ∈ [0x8, 0x9, 0xA, 0xB, 0xC, 0xD, 0xF]) ∨
    (op.toNat / 0x1000 = 0xE ∧ op.toNat % 0x100 ≠ 0x9E ∧ op.toNat % 0x100 ≠ 0xA1) ∨
    (op.toNat / 0x1000 = 0xF ∧
      op.toNat % 0x100 ∉ [0x07, 0x0A, 0x15, 0x18, 0x1E, 0x29, 0x33, 0x55, 0x65]) := by
  rw [← category_toNat, ← fieldN_toNat, ← fieldKK_toNat]
  unfold decode
  split
  case h_1 hc => simp [decode0_error_iff hc, hc]
  case h_6 hc | h_10 hc =>
    split
    · next hn => simp [hc, hn]
    · next hn => simpa [hc, ← BitVec.toNat_inj] using hn
  case h_9 hc => simp [decode8_error_iff, hc]
  case h_15 hc => simp [decodeE_error_iff, hc]
  case h_16 h0 h1 h2 h3 h4 h5 h6 h7 h8 h9 hA hB hC hD hE =>
    have hc := (category_cases (category op)).resolve_left
      (by simpa using ⟨h0, h1, h2, h3, h4, h5, h6, h7, h8, h9, hA, hB, hC, hD, hE⟩)
    simp [decodeF_error_iff, hc]
  case h_2 hc | h_3 hc | h_4 hc | h_5 hc | h_7 hc | h_8 hc | h_11 hc | h_12 hc | h_13 hc |
      h_14 hc =>
    simp [hc]

end Sys2Proof
end

section
/-! PROOFS. The engine on a fetched word (spec/30_encoding.md, R88 to R91): the fault of an illegal
word, the fetch, the execution of the decoded instruction; that every step answers a state; and
`key_wait` (R97). -/

namespace Sys2Proof.Machine

/-- Fault entry, as R232 states it. -/
theorem faulted_enterFault (op : Word) (c : FaultCause) (a : Word) (s : State) :
    Faulted op c a s (s.enterFault op c a) :=
  ⟨rfl, rfl, rfl, rfl, rfl, rfl, sameExcept_enterFault op c a s⟩

/-- A word that does not decode enters the fault of R88. -/
theorem runWord_illegal {op : Word} {e : Illegal} (s : State) (h : decode op = .error e) :
    runWord op s = .next (s.enterFault op .illegalInstruction 0) := by
  simp [runWord, h, raise_eq]

/-- Settles O5: category by category, and fault entry for what is refused. -/
theorem illegalWordsAreTheListed : Obligations.IllegalWordsAreTheListed :=
  ⟨decode_error_iff, fun _ s ⟨_, he⟩ => ⟨_, runWord_illegal s he, faulted_enterFault ..⟩⟩

/-- Settles O8: the two bytes at `pc` joined, or the fault of R91. -/
theorem fetchIsBigEndianOrFaults : Obligations.FetchIsBigEndianOrFaults := by
  refine fun s => ⟨fun hp => ?_, fun hp hh r => ?_⟩
  · rcases s.fetch_cases with ⟨hp', -⟩ | ⟨-, hf⟩
    · omega
    · exact ⟨_, hf, wordAtPc_of_fetch hf⟩
  · exact ⟨_, cycle_noFetch r hh hp, faulted_enterFault ..⟩

/-- Bytes decode as the word of the first two does (R80). -/
theorem decode_of_decodeBytes {hi lo : Byte} {bs rest : List Byte} {i : Instr}
    (h : decodeBytes (hi :: lo :: bs) = .ok (i, rest)) : decode (wordOfBytes hi lo) = .ok i := by
  rw [decodeBytes_cons_cons] at h
  cases hd : decode (wordOfBytes hi lo) with
  | error e =>
    rw [hd] at h
    cases h
  | ok j =>
    rw [hd] at h
    cases h
    rfl

/-- A `Cycle` executes the instruction whose bytes are at `pc` (R90). -/
theorem cycle_exec_of_bytes {s : State} {i : Instr} {rest : List Byte} (r : Option Byte)
    (hh : s.halted = false) (hp : s.pc.toNat ≤ 0xFFE)
    (hb : decodeBytes [s.mem.read s.pc.toNat, s.mem.read (s.pc.toNat + 1)] = .ok (i, rest)) :
    cycle r s = exec i (s.beginCycle r) := by
  rcases s.fetch_cases with ⟨hp', -⟩ | ⟨-, hf⟩
  · omega
  · exact cycle_exec r hh hf (decode_of_decodeBytes hb)

/-- Settles O7: a `Cycle` is due in both clauses, with the free byte or the one the schedule
names. -/
theorem stepRunsDecodedInstruction : Obligations.StepRunsDecodedInstruction := by
  intro s i hh hp hb
  refine ⟨fun hn => ?_, fun r es hc => ?_⟩
  · rcases step_cases s with ⟨-, hs⟩ | ⟨e, es, hc, -⟩
    · exact hs.trans (cycle_exec_of_bytes none hh hp hb)
    · cases hn.symm.trans hc
  · rw [stepDeliversOldestEvent s _ es hc]
    exact cycle_exec_of_bytes (s := s.setEvents es) (some r) hh hp hb

/-- Every `Cycle` answers a state: an error of CORE is a fault entry (R232, R235). -/
theorem cycle_answers (r : Option Byte) (s : State) : ∃ t, cycle r s = .next t := by
  rcases cycle_cases r s with ⟨-, hc⟩ | ⟨-, -, hc⟩ | ⟨-, -, op, -, ⟨e, -, hc⟩ | ⟨i, -, hc⟩⟩
  · exact ⟨_, hc⟩
  · exact ⟨_, hc⟩
  · exact ⟨_, hc⟩
  · exact ⟨_, hc.trans (exec_eq ..)⟩

/-- Every event answers a state (R40). -/
theorem deliver_answers (e : Event) (s : State) : ∃ t, deliver e s = .next t := by
  cases e with
  | cycle r => exact cycle_answers (some r) s
  | _ => exact ⟨_, rfl⟩

/-- Settles O17: a step is a `Cycle` or the oldest event, and each answers a state. -/
theorem stepAlwaysAnswers : Obligations.StepAlwaysAnswers := by
  intro s
  rcases step_cases s with ⟨-, hs⟩ | ⟨e, es, -, hs⟩ <;> rw [hs]
  · exact cycle_answers none s
  · exact deliver_answers e _

/-- `Fx0A` waits exactly where no key is pressed (R213). -/
theorem completed_ldVxK_keyWait (x : Reg) (s : State) :
    (completed (.ldVxK x) s).keyWait = true ↔ ∀ k : Fin 16, s.keys[k] = false := by
  unfold completed
  rcases s.leastKey_cases with ⟨hnone, hl⟩ | ⟨k, hk, -, hl⟩ <;> rw [hl]
  · exact iff_of_true rfl hnone
  · exact iff_of_false nofun fun hnone => Bool.false_ne_true ((hnone k).symm.trans hk)

/-- `key_wait` after an instruction (R97): fault entry and every other completion clear it. -/
theorem outcome_keyWait_iff (i : Instr) (s : State) :
    (outcome i s).keyWait = true ↔ (∃ x, i = .ldVxK x) ∧ ∀ k : Fin 16, s.keys[k] = false := by
  constructor
  · intro h
    rcases outcome_cases i s with ⟨c, a, -, ho⟩ | ⟨-, ho⟩ <;> rw [ho] at h
    · cases h
    · obtain ⟨⟨x, rfl⟩, -⟩ := completed_waiting h
      exact ⟨⟨x, rfl⟩, (completed_ldVxK_keyWait x s).1 h⟩
  · rintro ⟨⟨x, rfl⟩, hnone⟩
    exact (completed_ldVxK_keyWait x s).2 hnone

/-- Completing does not halt (R34). -/
theorem completed_halted (i : Instr) (s : State) : (completed i s).halted = s.halted := by
  obtain ⟨-, -, -, -, -, -, -, -, hfault, -⟩ := sameExcept_completed i s
  obtain ⟨hhalt, -⟩ := hfault (by cases i <;> simp [mayWrite])
  exact hhalt

/-- An instruction that halts has faulted, and fault entry clears `key_wait` (R232). -/
theorem outcome_keyWait_of_halts {i : Instr} {s : State} (hh : s.halted = false)
    (ht : (outcome i s).halted = true) : (outcome i s).keyWait = false := by
  rcases outcome_cases i s with ⟨c, a, -, ho⟩ | ⟨-, ho⟩ <;> rw [ho] at ht ⊢
  · rfl
  · rw [completed_halted, hh] at ht
    cases ht

/-- Settles O22: by the outcome of the instruction, and by the cases of a `Cycle`. -/
theorem keyWaitOnlyWhenWaiting : Obligations.KeyWaitOnlyWhenWaiting := by
  refine ⟨fun i s t h => ?_, fun r s t hh h ht => ?_⟩
  · obtain rfl := eq_outcome_of_exec h
    exact outcome_keyWait_iff i s
  · rcases cycle_cases r s with ⟨hh', -⟩ | ⟨-, -, hc⟩ | ⟨-, -, op, -, ⟨e, -, hc⟩ | ⟨i, -, hc⟩⟩
    · cases hh.symm.trans hh'
    · obtain rfl := Host.Outcome.next.inj (hc.symm.trans h)
      rfl
    · obtain rfl := Host.Outcome.next.inj (hc.symm.trans h)
      rfl
    · obtain rfl := eq_outcome_of_exec (hc.symm.trans h)
      exact outcome_keyWait_of_halts hh ht

end Sys2Proof.Machine
end

section
/-! PROOFS. Control transfer and the call stack (spec/40_control.md, R120 to R130). -/

namespace Sys2Proof.Machine

/-- An instruction without a fault in this state answers the state it completes in (R92). -/
theorem exec_of_noFault {i : Instr} {s : State} (h : ownFault s i = none) :
    exec i s = .next (completed i s) := by
  rw [exec_eq, outcome_of_noFault h]

/-! Jumps and skips: `pc` and `key_wait` alone are written (R120). -/

theorem sameExcept_commit_setPc (s : State) (a : Word) : SameExcept [] s (s.commit.setPc a) := by
  simp [SameExcept]

theorem sameExcept_skipped (s : State) (c : Bool) : SameExcept [] s (s.skipped c) :=
  sameExcept_commit_setPc s _

/-- A skip passes over one word more, and both targets count from the skip itself (R120). -/
theorem State.skipped_pc (s : State) (c : Bool) :
    (s.skipped c).pc = if c then s.pc + 4 else s.pc + 2 := by
  have hnext : s.pc1 + 2 = s.pc + 4 := BitVec.add_assoc s.pc 2 2
  rw [← hnext]
  rfl

theorem State.skipped_beq_pc (s : State) (a b : Byte) :
    (s.skipped (a == b)).pc = if a = b then s.pc + 4 else s.pc + 2 := by
  simp only [skipped_pc, beq_iff_eq]

theorem State.skipped_bne_pc (s : State) (a b : Byte) :
    (s.skipped (a != b)).pc = if a = b then s.pc + 2 else s.pc + 4 := by
  simp only [skipped_pc, bne_iff_ne, ite_not]

/-- Settles O32: the jump completes at its target. -/
theorem jumpGoesToTarget : Obligations.JumpGoesToTarget := fun nnn _ =>
  ⟨_, exec_of_noFault rfl, zextAddr_toNat nnn, rfl, sameExcept_commit_setPc ..⟩

/-- Settles O34: the two skips on equal and on unequal, of `V[x]` and `kk`. -/
theorem skipsOnImmediate : Obligations.SkipsOnImmediate := fun x kk s =>
  ⟨⟨_, exec_of_noFault rfl, s.skipped_beq_pc s.v[x] kk, rfl, sameExcept_skipped ..⟩,
    _, exec_of_noFault rfl, s.skipped_bne_pc s.v[x] kk, rfl, sameExcept_skipped ..⟩

/-- Settles O35: the two skips on equal and on unequal, of `V[x]` and `V[y]`. -/
theorem skipsOnRegister : Obligations.SkipsOnRegister := fun x y s =>
  ⟨⟨_, exec_of_noFault rfl, s.skipped_beq_pc s.v[x] s.v[y], rfl, sameExcept_skipped ..⟩,
    _, exec_of_noFault rfl, s.skipped_bne_pc s.v[x] s.v[y], rfl, sameExcept_skipped ..⟩

/-- The largest target of `Bnnn`, from the widths of `nnn` and `V[0]` (R24, R130). -/
theorem State.computedTarget_le (s : State) (nnn : Addr) :
    (s.computedTarget nnn).toNat ≤ 0x10FE := by
  have hnnn := nnn.isLt
  have hv := s.v[(0 : Reg)].isLt
  rw [computedTarget_toNat]
  omega

/-- Settles O36: the sum of a 12-bit and an 8-bit value fits in `pc`. -/
theorem computedJumpIsNotMasked : Obligations.ComputedJumpIsNotMasked := fun nnn s =>
  ⟨_, exec_of_noFault rfl, s.computedTarget_toNat nnn, s.computedTarget_le nnn, rfl,
    sameExcept_commit_setPc ..⟩

/-! The call and the return: the stack is written besides (R121, R122). -/

theorem sameExcept_commit_setStack_setPc (s : State) (k : Vector Word 16) (p : Fin 17) (a : Word) :
    SameExcept [.stack] s ((s.commit.setStack k p).setPc a) := by
  simp [SameExcept]

/-- The return at depth `j + 1`, with slot `j` the newest entry (R122, R123). -/
theorem outcome_ret_pops {s : State} {j : Fin 16} (h : s.sp.val = j.val + 1) :
    outcome .ret s = (s.commit.setStack s.stack j.castSucc).setPc s.stack[j] := by
  have hdepth : s.sp.val - 1 = j.val := by omega
  rw [outcome_ret_nonempty (by omega)]
  simp only [completed, hdepth]
  rfl

/-- The call at depth `j`, with slot `j` the first free one (R121, R125). -/
theorem outcome_call_pushes {s : State} {j : Fin 16} (nnn : Addr) (h : s.sp.val = j.val) :
    outcome (.call nnn) s =
      (s.commit.setStack (s.stack.set j.val s.pc1) j.succ).setPc (zextAddr nnn) := by
  have hdepth : min (j.val + 1) 16 = j.val + 1 := Nat.min_eq_left j.isLt
  rw [outcome_call_notFull nnn (by omega)]
  simp only [completed, h, hdepth, setIfInBounds_eq_set _ j.isLt]
  rfl

/-- Settles O31: the fault at depth 0, and the pop at every other depth. -/
theorem returnPops : Obligations.ReturnPops := by
  refine fun s => ⟨_, exec_eq .ret s, fun hempty => ?_, fun j hj => ?_⟩
  · rw [outcome_ret_empty hempty]
    exact faulted_enterFault ..
  · rw [outcome_ret_pops hj]
    exact ⟨⟨rfl, rfl⟩, rfl, rfl, sameExcept_commit_setStack_setPc ..⟩

/-- Settles O33: the fault at depth 16, and the push at every other depth. -/
theorem callPushes : Obligations.CallPushes := by
  refine fun nnn s => ⟨_, exec_eq (.call nnn) s, fun hfull => ?_, fun j hj => ?_⟩
  · rw [outcome_call_full nnn hfull]
    exact faulted_enterFault ..
  · rw [outcome_call_pushes nnn hj]
    refine ⟨zextAddr_toNat nnn, rfl, rfl, Vector.getElem_set_self .., fun k hk => ?_,
      sameExcept_commit_setStack_setPc ..⟩
    exact Vector.getElem_set_ne j.isLt k.isLt fun e => hk (Fin.ext e.symm)

/-- Settles O37: the return pops the slot the call pushed, the one at the old depth. -/
theorem returnUndoesCall : Obligations.ReturnUndoesCall := by
  intro nnn s hroom
  obtain ⟨t, ht, -, hpush⟩ := callPushes nnn s
  obtain ⟨-, -, hdepth, hpushed, hbelow, -⟩ := hpush ⟨s.sp.val, hroom⟩ rfl
  refine ⟨t, ht, fun j hj => hbelow j (Fin.ne_of_lt hj), fun u husp hustack => ?_⟩
  obtain ⟨w, hw, -, hpop⟩ := returnPops u
  obtain ⟨⟨hpc, -⟩, hback, -⟩ := hpop ⟨s.sp.val, hroom⟩ (by rw [husp, hdepth])
  exact ⟨w, hw, by rw [hpc, hustack, hpushed], Fin.ext hback⟩

end Sys2Proof.Machine
end

section
/-! PROOFS. Register loads and the ALU (spec/41_alu.md, R140 to R155). -/

namespace Sys2Proof.Machine

/-! The two ways an ALU instruction completes: the register alone, or the flag and the register
(R96). -/

/-- An instruction that completes without a flag, with the value its rule gives. -/
theorem exec_of_writeReg {i : Instr} {x : Reg} {b : Byte} {n : Nat} {s : State}
    (hi : exec i s = writeReg x b s) (hn : b.toNat = n) :
    ∃ t, exec i s = .next t ∧ OnlyRegister x n s t ∧ Advanced s t ∧ SameExcept [.regs] s t := by
  obtain ⟨hnext, hx, hrest⟩ := writeReg_spec x b s
  refine ⟨_, hi.trans hnext, ⟨?_, hrest⟩, ⟨rfl, rfl⟩, ?_⟩
  · rw [hx, hn]
  · simp [SameExcept]

/-- An instruction that completes with a flag, with the value and the flag its rule gives. -/
theorem exec_of_writeFlagged {i : Instr} {f g : Bool} {x : Reg} {b : Byte} {n : Nat} {s : State}
    (hi : exec i s = writeFlagged f x b s) (hn : b.toNat = n) (hf : f = g) :
    ∃ t, exec i s = .next t ∧ ResultAndFlag x n g s t ∧ Advanced s t ∧
      SameExcept [.regs] s t := by
  obtain ⟨hnext, hx, hflag, hrest⟩ := writeFlagged_spec f x b s
  refine ⟨_, hi.trans hnext, ⟨?_, fun h15 => ?_, hrest⟩, ⟨rfl, rfl⟩, ?_⟩
  · rw [hx, hn]
  · rw [hflag h15, flagByte_toNat, hf]
  · simp [SameExcept]

/-! Without a flag (R140 to R145). -/

/-- Settles O38: the value loaded is the operand itself. -/
theorem loadsWriteTheirRegister : Obligations.LoadsWriteTheirRegister := fun _ _ _ _ =>
  ⟨exec_of_writeReg rfl rfl, exec_of_writeReg rfl rfl⟩

/-- Settles O39: the sum of bytes wraps, and `7xkk` completes without a flag. -/
theorem addImmediateSetsNoFlag : Obligations.AddImmediateSetsNoFlag := fun _ _ _ =>
  exec_of_writeReg rfl (BitVec.toNat_add ..)

/-- Settles O40: the three completions without a flag, each on its own operation. -/
theorem logicSetsNoFlag : Obligations.LogicSetsNoFlag := fun _ _ _ =>
  ⟨exec_of_writeReg rfl (BitVec.toNat_or ..), exec_of_writeReg rfl (BitVec.toNat_and ..),
    exec_of_writeReg rfl (BitVec.toNat_xor ..)⟩

/-! With a flag (R146 to R150). -/

/-- Settles O41: the model's carry is the bound on the sum as R146 words it. -/
theorem addSetsCarry : Obligations.AddSetsCarry := fun _ _ _ =>
  exec_of_writeFlagged rfl (BitVec.toNat_add ..) rfl

/-- Settles O42: the two differences, with the operands in both orders. -/
theorem subtractsSetNotBorrow : Obligations.SubtractsSetNotBorrow := fun _ _ _ =>
  ⟨exec_of_writeFlagged rfl (byte_sub_toNat ..) rfl,
    exec_of_writeFlagged rfl (byte_sub_toNat ..) rfl⟩

/-- Settles O43: the bit each shift drops is the remainder by 2 and the bound of 128. -/
theorem shiftsSetShiftedOutBit : Obligations.ShiftsSetShiftedOutBit := fun _ _ _ =>
  ⟨exec_of_writeFlagged rfl (byte_shr_toNat _) (lowBitFlag_eq _),
    exec_of_writeFlagged rfl (byte_shl_toNat _) (highBitFlag_eq _)⟩

/-- Settles O44: the result clause of the five flag instructions, at `x = 0xF`. -/
theorem resultReplacesFlagInVF : Obligations.ResultReplacesFlagInVF := by
  intro y s
  obtain ⟨a, hadd, ⟨hsum, -⟩, -⟩ := addSetsCarry 15 y s
  obtain ⟨⟨b, hsub, ⟨hdiff, -⟩, -⟩, c, hsubn, ⟨hrdiff, -⟩, -⟩ := subtractsSetNotBorrow 15 y s
  obtain ⟨⟨d, hshr, ⟨hhalf, -⟩, -⟩, e, hshl, ⟨hdouble, -⟩, -⟩ := shiftsSetShiftedOutBit 15 y s
  exact ⟨⟨a, hadd, hsum⟩, ⟨b, hsub, hdiff⟩, ⟨d, hshr, hhalf⟩, ⟨c, hsubn, hrdiff⟩,
    e, hshl, hdouble⟩

/-! The random byte (R42, R151). -/

/-- The byte the schedule names is the one the `Cycle` carries. -/
theorem State.rndByte_of_some {s : State} {b : Byte} (h : s.rndIn = some b) : s.rndByte = b := by
  simp [rndByte, h]

/-- Where the schedule names no byte the `Cycle` carries the free value (log 1). -/
theorem State.rndByte_of_none {s : State} (h : s.rndIn = none) :
    s.rndByte = Config.rnd s.draws := by
  simp [rndByte, h]

/-- Settles O45: the byte of the `Cycle`, masked, in a completion without a flag. -/
theorem randomIsMasked : Obligations.RandomIsMasked := by
  intro x kk s
  obtain ⟨t, ht, hdone⟩ := exec_of_writeReg (i := .rnd x kk) (s := s) rfl (BitVec.toNat_and ..)
  exact ⟨s.rndByte, t, ht, fun _ => State.rndByte_of_some, State.rndByte_of_none, hdone⟩

end Sys2Proof.Machine
end

section
/-! PROOFS. The index register and memory (spec/42_index_memory.md, R170 to R176). -/

namespace Sys2Proof.Machine

/-! The writes of `I` (R170 to R172). -/

/-- An instruction that writes `I` and goes to the next word, with the value its rule gives. -/
theorem exec_of_setIdx {i : Instr} {a : Word} {n : Nat} {s : State}
    (hi : exec i s = .next (s.commit.setIdx a)) (hn : a.toNat = n) :
    ∃ t, exec i s = .next t ∧ t.idx.toNat = n ∧ Advanced s t ∧ SameExcept [.idx] s t :=
  ⟨_, hi, hn, ⟨rfl, rfl⟩, by simp [SameExcept]⟩

/-- `Fx1E` (R171): the sum wraps only at 2^16. -/
theorem idx_add_zextByte_toNat (a : Word) (b : Byte) :
    (a + zextByte b).toNat = (a.toNat + b.toNat) % 65536 := by
  rw [BitVec.toNat_add, zextByte_toNat]

/-- Settles O46: the address, the wrapping sum, and the glyph's address, each written to `I`. -/
theorem indexWrites : Obligations.IndexWrites := fun nnn x s =>
  ⟨exec_of_setIdx rfl (zextAddr_toNat nnn),
    exec_of_setIdx rfl (idx_add_zextByte_toNat s.idx (s.reg x)),
    exec_of_setIdx rfl (glyphAddr_toNat (s.reg x))⟩

/-! The bounds of a data instruction whose highest address is `last` (R62): it completes where that
address lies in memory, and faults where it does not. -/

theorem outcome_of_data_inside {i : Instr} {s : State} {last : Nat}
    (hf : ownFault s i =
      if 0xFFF < last then some (.dataOutOfBounds, dataFaultAddr s) else none)
    (h : last ≤ 0xFFF) : outcome i s = completed i s :=
  outcome_of_noFault (hf.trans (if_neg (Nat.not_lt.2 h)))

theorem faulted_of_data_outside {i : Instr} {s : State} {last : Nat}
    (hf : ownFault s i =
      if 0xFFF < last then some (.dataOutOfBounds, dataFaultAddr s) else none)
    (h : 0xFFF < last) :
    Faulted (encode i) .dataOutOfBounds (dataFaultAddr s) s (outcome i s) := by
  rw [outcome_of_fault (hf.trans (if_pos h))]
  exact faulted_enterFault ..

/-! The stores (R173, R174). -/

/-- Byte `k` of bytes stored in a row, read back. -/
theorem Memory.read_writeBytes_add (m : Memory) (a k : Nat) (bs : List Byte) :
    (m.writeBytes a bs).read (a + k) = bs.getD k (m.read (a + k)) := by
  rw [read_writeBytes, if_pos (Nat.le_add_right a k), Nat.add_sub_cancel_left]

/-- A completing store writes memory only. -/
theorem sameExcept_commit_setMem (s : State) (m : Memory) :
    SameExcept [.mem] s (s.commit.setMem m) := by
  simp [SameExcept]

/-- Below `I` and above the last stored byte memory is as before. -/
theorem completed_mem_beyond {i : Instr} {s : State} {last a : Nat}
    (hc : storeCount i = last + 1) (h : ¬ (s.idx.toNat ≤ a ∧ a ≤ s.idx.toNat + last)) :
    (completed i s).mem.read a = s.mem.read a :=
  completed_mem_outside (by omega)

/-- The bytes `Fx33` stores (R173): the hundreds, the tens and the ones. -/
theorem completed_ldB_digits (x : Reg) (s : State) :
    ((completed (.ldB x) s).mem.read s.idx.toNat).toNat = s.v[x].toNat / 100 ∧
    ((completed (.ldB x) s).mem.read (s.idx.toNat + 1)).toNat = s.v[x].toNat / 10 % 10 ∧
    ((completed (.ldB x) s).mem.read (s.idx.toNat + 2)).toNat = s.v[x].toNat % 10 := by
  have hread (k : Nat) : (completed (.ldB x) s).mem.read (s.idx.toNat + k) =
      (bcdDigits (s.reg x)).getD k (s.mem.read (s.idx.toNat + k)) :=
    Memory.read_writeBytes_add ..
  have hdigit {n : Nat} (h : n < 256) : (BitVec.ofNat 8 n).toNat = n := Nat.mod_eq_of_lt h
  have hlt := s.v[x].isLt
  have h0 := hread 0
  rw [Nat.add_zero] at h0
  rw [h0, hread, hread]
  exact ⟨hdigit (by omega), hdigit (by omega), hdigit (by omega)⟩

/-- Settles O47: the three digits and the frame of the store, or the fault of R62. -/
theorem bcdStoresDigits : Obligations.BcdStoresDigits := by
  refine fun x s => ⟨_, exec_eq .., fun h => ?_, faulted_of_data_outside rfl⟩
  rw [outcome_of_data_inside rfl h]
  obtain ⟨hhundreds, htens, hones⟩ := completed_ldB_digits x s
  exact ⟨hhundreds, htens, hones, fun a => completed_mem_beyond rfl, ⟨rfl, rfl⟩,
    sameExcept_commit_setMem ..⟩

/-- The bytes `Fx55` stores (R174): `V[0]` to `V[x]`. -/
theorem completed_storeRegs_read {x r : Reg} (s : State) (h : r ≤ x) :
    (completed (.storeRegs x) s).mem.read (s.idx.toNat + r.val) = s.v[r] :=
  (Memory.read_writeBytes_add ..).trans (s.regsUpTo_getD x r _ h)

/-- Settles O48: the registers' bytes and the frame of the store, or the fault of R62. -/
theorem registerStore : Obligations.RegisterStore := by
  refine fun x s => ⟨_, exec_eq .., fun h => ?_, faulted_of_data_outside rfl⟩
  rw [outcome_of_data_inside rfl h]
  exact ⟨fun r => completed_storeRegs_read s, fun a => completed_mem_beyond rfl, ⟨rfl, rfl⟩,
    sameExcept_commit_setMem ..⟩

/-! The load (R175). -/

/-- The registers `Fx65` loads: `V[0]` to `V[x]`, from `I` upwards. -/
theorem completed_loadRegs_reg {x r : Reg} (s : State) (h : r ≤ x) :
    (completed (.loadRegs x) s).v[r] = s.mem.read (s.idx.toNat + r.val) :=
  (s.regsLoaded_get x r).trans (if_pos h)

/-- Settles O49: the bytes loaded and the registers above `x`, or the fault of R62. -/
theorem registerLoad : Obligations.RegisterLoad := by
  refine fun x s => ⟨_, exec_eq .., fun h => ?_, faulted_of_data_outside rfl⟩
  rw [outcome_of_data_inside rfl h]
  refine ⟨fun r => completed_loadRegs_reg s, fun r hr => completed_reg s ?_, ⟨rfl, rfl⟩,
    sameExcept_completed (.loadRegs x) s⟩
  simpa [mayWriteReg] using hr

/-- Settles O50: each byte the load reads is the one the store put there, at the `I` the store
left. -/
theorem storeThenLoadRestores : Obligations.StoreThenLoadRestores := by
  intro x s h
  obtain ⟨t, ht, hinside, -⟩ := registerStore x s
  obtain ⟨hstored, -, -, -, hidx, -⟩ := hinside h
  refine ⟨t, ht, fun u hmem hi => ?_⟩
  have hui : u.idx = s.idx := hi.trans (hidx (by decide))
  obtain ⟨w, hw, hload, -⟩ := registerLoad x u
  obtain ⟨hloaded, -⟩ := hload (by rwa [hui])
  refine ⟨w, hw, fun r hr => ?_⟩
  rw [hloaded r hr, hmem, hui, hstored r hr]

end Sys2Proof.Machine
end

section
/-! PROOFS. The display (spec/43_display.md, R190 to R195). -/

namespace Sys2Proof.Machine

/-! The clear (R192). -/

/-- A completion that writes the display only. -/
theorem sameExcept_commit_setDisp (s : State) (d : Display) :
    SameExcept [.disp] s (s.commit.setDisp d) := by
  simp [SameExcept]

/-- Settles O52: the blank display is written, and nothing else. -/
theorem clearBlanksDisplay : Obligations.ClearBlanksDisplay := fun _ =>
  ⟨_, exec_of_noFault rfl, blankDisplay_pixel, ⟨rfl, rfl⟩, sameExcept_commit_setDisp ..⟩

/-! The drawing (R193). -/

/-- The sprite as the loop walks it is the sprite as R190 and R191 place it. -/
theorem underSprite_iff_spriteCovers (s : State) (x y : Reg) (n : Nibble) (r : Fin 32)
    (c : Fin 64) :
    underSprite s.mem (s.dataAddr 0) n.toNat (s.reg x).toNat (s.reg y).toNat r c ↔
      SpriteCovers s x y n r c := by
  constructor
  · rintro ⟨i, hi, hr, j, hj, hbit, hc⟩
    exact ⟨i, j, hi, hj, hbit, congrArg Fin.val hr, congrArg Fin.val hc⟩
  · rintro ⟨i, j, hi, hj, hbit, hr, hc⟩
    exact ⟨i, hi, Fin.ext hr, j, hj, hbit, Fin.ext hc⟩

/-- The pixels the sprite covers flip and the others stay; the flag tells a lit one among them. -/
theorem State.drawn_spec (s : State) (x y : Reg) (n : Nibble) :
    (∀ r c, (SpriteCovers s x y n r c → (s.drawn x y n).1.pixel r c = !s.disp.pixel r c) ∧
      (¬ SpriteCovers s x y n r c → (s.drawn x y n).1.pixel r c = s.disp.pixel r c)) ∧
    ((s.drawn x y n).2 = true ↔ ∃ r c, SpriteCovers s x y n r c ∧ s.disp.pixel r c = true) := by
  simp only [← underSprite_iff_spriteCovers]
  exact drawSprite_spec _ _ _ _ _ (Nat.le_of_lt_succ n.isLt) _

/-- A pixel goes from 1 to 0 where the sprite covers a lit one, and nowhere else. -/
theorem State.drawn_collision (s : State) (x y : Reg) (n : Nibble) :
    (s.drawn x y n).2 = true ↔
      ∃ r c, s.disp.pixel r c = true ∧ (s.drawn x y n).1.pixel r c = false := by
  obtain ⟨hpixel, hhit⟩ := s.drawn_spec x y n
  rw [hhit]
  constructor
  · rintro ⟨r, c, hcov, hlit⟩
    exact ⟨r, c, hlit, by rw [(hpixel r c).1 hcov, hlit, Bool.not_true]⟩
  · rintro ⟨r, c, hlit, hoff⟩
    refine ⟨r, c, ?_, hlit⟩
    by_contra hcov
    rw [(hpixel r c).2 hcov, hlit] at hoff
    cases hoff

theorem flagByte_eq_zero_or_one (f : Bool) : flagByte f = 0 ∨ flagByte f = 1 := by
  cases f <;> decide

theorem flagByte_eq_one_iff (f : Bool) : flagByte f = 1 ↔ f = true := by
  cases f <;> decide

/-- VF after a completing draw is the collision flag (R22, R193). -/
theorem completed_drw_vf (x y : Reg) (n : Nibble) (s : State) :
    (completed (.drw x y n) s).v[(15 : Reg)] = flagByte (s.drawn x y n).2 :=
  (State.setV_get ..).trans (if_pos rfl)

theorem outcome_drw_inside {x y : Reg} {n : Nibble} {s : State}
    (h : n.toNat = 0 ∨ s.idx.toNat + n.toNat - 1 ≤ 0xFFF) :
    outcome (.drw x y n) s = completed (.drw x y n) s :=
  outcome_of_noFault (if_neg (by omega))

theorem faulted_drw_outside (x y : Reg) {n : Nibble} {s : State} (hn : n.toNat ≠ 0)
    (h : 0xFFF < s.idx.toNat + n.toNat - 1) :
    Faulted (encode (.drw x y n)) .dataOutOfBounds (dataFaultAddr s) s
      (outcome (.drw x y n) s) := by
  have hf : ownFault s (.drw x y n) = some (.dataOutOfBounds, dataFaultAddr s) :=
    if_pos ⟨Nat.pos_of_ne_zero hn, h⟩
  rw [outcome_of_fault hf]
  exact faulted_enterFault ..

/-- Settles O53: the pixels and the collision flag of the loop, or the fault of R62. -/
theorem drawXorsSprite : Obligations.DrawXorsSprite := by
  refine fun x y n s => ⟨_, exec_eq .., fun h => ?_, faulted_drw_outside x y⟩
  obtain ⟨hpixel, -⟩ := s.drawn_spec x y n
  rw [outcome_drw_inside h, completed_drw_vf]
  exact ⟨hpixel, flagByte_eq_zero_or_one _,
    (flagByte_eq_one_iff _).trans (s.drawn_collision x y n),
    fun r hr => completed_reg s (decide_eq_false hr), ⟨rfl, rfl⟩,
    sameExcept_completed (.drw x y n) s⟩

/-! The second draw (R194). -/

/-- A draw that does not halt has not faulted: its sprite lies in memory (R62). -/
theorem inside_of_drw_not_halted {x y : Reg} {n : Nibble} {s : State}
    (h : (outcome (.drw x y n) s).halted = false) :
    n.toNat = 0 ∨ s.idx.toNat + n.toNat - 1 ≤ 0xFFF := by
  by_contra hout
  obtain ⟨hn, hbeyond⟩ : n.toNat ≠ 0 ∧ 0xFFF < s.idx.toNat + n.toNat - 1 := by omega
  obtain ⟨hhalted, -⟩ := faulted_drw_outside x y hn hbeyond
  exact Bool.false_ne_true (h.symm.trans hhalted)

/-- With the same operands and sprite bytes the sprite covers the same pixels. -/
theorem spriteCovers_congr {x y : Reg} {n : Nibble} {s u : State} (hx : u.v[x] = s.v[x])
    (hy : u.v[y] = s.v[y]) (hidx : u.idx = s.idx)
    (hmem : ∀ i, i < n.toNat → u.mem.read (s.idx.toNat + i) = s.mem.read (s.idx.toNat + i))
    (r : Fin 32) (c : Fin 64) : SpriteCovers u x y n r c ↔ SpriteCovers s x y n r c := by
  unfold SpriteCovers
  rw [hx, hy, hidx]
  refine exists_congr fun i => exists_congr fun j => and_congr_right fun hi => ?_
  rw [hmem i hi]

/-- Displays with the same pixels are one display (R33). -/
theorem Display.ext_pixel {d e : Display} (h : ∀ r c, d.pixel r c = e.pixel r c) : d = e :=
  Vector.ext fun i hi => Vector.ext fun j hj => h ⟨i, hi⟩ ⟨j, hj⟩

/-- The second draw flips back what the first flipped. -/
theorem State.drawn_restores {x y : Reg} {n : Nibble} {s u : State}
    (hdisp : u.disp = (s.drawn x y n).1)
    (hsame : ∀ r c, SpriteCovers u x y n r c ↔ SpriteCovers s x y n r c) :
    (u.drawn x y n).1 = s.disp := by
  obtain ⟨hfirst, -⟩ := s.drawn_spec x y n
  obtain ⟨hsecond, -⟩ := u.drawn_spec x y n
  refine Display.ext_pixel fun r c => ?_
  by_cases hcov : SpriteCovers s x y n r c
  · rw [(hsecond r c).1 ((hsame r c).2 hcov), hdisp, (hfirst r c).1 hcov, Bool.not_not]
  · rw [(hsecond r c).2 (hcov ∘ (hsame r c).1), hdisp, (hfirst r c).2 hcov]

/-- Settles O54: the display is back, so the pixels the second draw turns off are the ones the
first turned on. -/
theorem drawTwiceRestores : Obligations.DrawTwiceRestores := by
  intro x y n s t u w _ ht hrun hdisp hx hy hidx hmem hw
  obtain rfl := eq_outcome_of_exec ht
  obtain rfl := eq_outcome_of_exec hw
  have hin := inside_of_drw_not_halted hrun
  have hin' : n.toNat = 0 ∨ u.idx.toNat + n.toNat - 1 ≤ 0xFFF := by rwa [hidx]
  rw [outcome_drw_inside hin] at hdisp ⊢
  rw [outcome_drw_inside hin', completed_drw_vf, flagByte_eq_one_iff, u.drawn_collision]
  have hback : (u.drawn x y n).1 = s.disp :=
    State.drawn_restores hdisp (spriteCovers_congr hx hy hidx hmem)
  refine ⟨hback, ?_⟩
  rw [hback, hdisp]
  exact exists_congr fun r => exists_congr fun c => and_comm

/-! What reads the display (R195). -/

theorem completed_setDisp {i : Instr} (d : Display) (s : State) (hcls : i ≠ .cls)
    (hdrw : ∀ x y n, i ≠ .drw x y n) :
    completed i (s.setDisp d) = (completed i s).setDisp d := by
  cases i with
  | cls => contradiction
  | drw x y n => exact absurd rfl (hdrw x y n)
  | ldVxK x =>
    exact completed_ldVxK_congr (g := fun u => u.setDisp d) rfl rfl fun _ => rfl
  | _ => rfl

/-- Settles O25: `00E0` overwrites the display whatever it held, and no other completion but
`Dxyn`'s mentions it. -/
theorem onlyDrawReadsDisplay : Obligations.OnlyDrawReadsDisplay := by
  intro i s t d hdrw h
  by_cases hcls : i = .cls
  · rw [if_pos hcls]
    subst hcls
    exact h
  · rw [if_neg hcls]
    exact exec_commutes (f := fun s => s.setDisp d) (by cases i <;> rfl) (fun _ _ => rfl)
      (fun _ => completed_setDisp d s hcls hdrw) h

end Sys2Proof.Machine
end

section
/-! PROOFS. Keypad and timers (spec/44_keys_timers.md, R210 to R216). -/

namespace Sys2Proof.Machine

/-! The wait for a key (R213). -/

/-- No key is pressed below the least one. -/
theorem State.le_of_pressed {s : State} {j k : Fin 16} (hj : s.keys[j] = true)
    (hbelow : ∀ i : Fin 16, i < k → s.keys[i] = false) : k ≤ j :=
  not_lt.1 fun hlt => Bool.false_ne_true ((hbelow j hlt).symm.trans hj)

theorem exec_ldVxK_of_none {s : State} (x : Reg) (h : s.leastKey = none) :
    exec (.ldVxK x) s = .next ((s.commit.setPc s.pc).setKeyWait true) := by
  simp only [exec, execLdVxK, h]

theorem exec_ldVxK_of_some {s : State} {k : Fin 16} (x : Reg) (h : s.leastKey = some k) :
    exec (.ldVxK x) s = writeReg x (BitVec.ofNat 8 k.val) s := by
  simp only [exec, execLdVxK, h]

/-- A key number fits in a byte (R213). -/
theorem key_ofNat_toNat (k : Fin 16) : (BitVec.ofNat 8 k.val).toNat = k.val :=
  Nat.mod_eq_of_lt (Nat.lt_trans k.isLt (by decide))

/-- Where no key is pressed `Fx0A` is the next instruction again (R97). -/
theorem sameExcept_waiting (s : State) :
    SameExcept [] s ((s.commit.setPc s.pc).setKeyWait true) := by
  simp [SameExcept]

/-- Settles O57: no key is pressed, or one is least; and two least keys are the same key. -/
theorem keyWaitTakesLeastKey : Obligations.KeyWaitTakesLeastKey := by
  intro x s
  rcases s.leastKey_cases with ⟨hnone, hl⟩ | ⟨k, hk, hbelow, hl⟩
  · refine ⟨_, exec_ldVxK_of_none x hl, fun _ => ⟨rfl, rfl, sameExcept_waiting s⟩, fun j hj => ?_⟩
    exact absurd ((hnone j).symm.trans hj) Bool.false_ne_true
  · obtain ⟨t, ht, hdone⟩ := exec_of_writeReg (exec_ldVxK_of_some x hl) (key_ofNat_toNat k)
    refine ⟨t, ht, fun hnone => ?_, fun j hj hjbelow => ?_⟩
    · exact absurd ((hnone k).symm.trans hk) Bool.false_ne_true
    · obtain rfl : j = k :=
        le_antisymm (State.le_of_pressed hk hjbelow) (State.le_of_pressed hj hbelow)
      exact hdone

/-! The skips on a key (R210, R211, R216). -/

/-- A skip on a key that is pressed or not as `p` says: it looks at the key `V[x]` names, and
faults where that is none. -/
theorem exec_of_skipOnKey {i : Instr} {x : Reg} {p : Bool} {s : State}
    (hi : exec i s = skipOnKey (encode i) s.v[x] p s) :
    ∃ t, exec i s = .next t ∧
      (∀ k : Fin 16, s.v[x].toNat = k.val →
        t.pc = (if s.keys[k] = p then s.pc + 4 else s.pc + 2) ∧ t.keyWait = false ∧
        SameExcept [] s t) ∧
      (0xF < s.v[x].toNat → Faulted (encode i) .keyIndexOutOfRange
        (BitVec.ofNat 16 s.v[x].toNat) s t) := by
  rcases skipOnKey_cases (encode i) s.v[x] p s with ⟨hbig, hskip⟩ | ⟨hkey, hskip⟩
  · refine ⟨_, hi.trans hskip, fun k hk => by omega, fun _ => ?_⟩
    rw [zextByte_eq_ofNat]
    exact faulted_enterFault ..
  · refine ⟨_, hi.trans hskip, fun k hk => ?_, fun hbig => by omega⟩
    obtain rfl : k = ⟨_, hkey⟩ := Fin.ext hk.symm
    exact ⟨if_congr Iff.rfl (BitVec.add_assoc s.pc 2 2) rfl, rfl, sameExcept_commit_setPc ..⟩

/-- Settles O55: the skip on a key, for a pressed and for a released one. -/
theorem skipsOnKey : Obligations.SkipsOnKey := fun _ _ =>
  ⟨exec_of_skipOnKey rfl, exec_of_skipOnKey rfl⟩

/-! The timers (R212, R214, R215). -/

/-- Settles O56: a completion without a flag, with `DT` as the value. -/
theorem delayTimerIsRead : Obligations.DelayTimerIsRead := fun _ _ =>
  exec_of_writeReg rfl rfl

theorem sameExcept_commit_setDt (s : State) (b : Byte) :
    SameExcept [.dt] s (s.commit.setDt b) := by
  simp [SameExcept]

theorem sameExcept_commit_setSt (s : State) (b : Byte) :
    SameExcept [.st] s (s.commit.setSt b) := by
  simp [SameExcept]

/-- The sound is on while `ST` is not 0 (R46). -/
theorem State.soundOn_eq (s : State) : s.soundOn = decide (s.st ≠ 0) :=
  decide_eq_decide.2 (by bv_omega)

/-- Settles O58: each timer takes `V[x]`, and `sound_on` follows `ST`. -/
theorem timerWrites : Obligations.TimerWrites := fun _ s =>
  ⟨⟨_, exec_of_noFault rfl, rfl, ⟨rfl, rfl⟩, sameExcept_commit_setDt s _⟩,
    _, exec_of_noFault rfl, rfl, State.soundOn_eq _, ⟨rfl, rfl⟩, sameExcept_commit_setSt s _⟩

end Sys2Proof.Machine
end

section
/-! PROOFS. Faults and the order of their checks, the halted state, and the tick
(spec/60_exceptions.md, R230 to R242). -/

namespace Sys2Proof.Machine

/-! The fault of an instruction and of a `Cycle` (R231 to R235). -/

/-- Completing keeps the four fault registers (R34). -/
theorem completed_faultRegisters (i : Instr) (s : State) :
    (completed i s).halted = s.halted ∧ (completed i s).faultCause = s.faultCause ∧
      (completed i s).faultOpcode = s.faultOpcode ∧ (completed i s).faultAddr = s.faultAddr := by
  obtain ⟨-, -, -, -, -, -, -, -, hfault, -⟩ := sameExcept_completed i s
  exact hfault (by cases i <;> simp [mayWrite])

/-- Settles O10: the outcome is fault entry where the instruction's own condition holds, and the
completed state otherwise. -/
theorem instructionsFaultExactly : Obligations.InstructionsFaultExactly := by
  refine fun i s => ⟨_, exec_eq i s, ?_⟩
  rcases outcome_cases i s with ⟨c, a, hf, ho⟩ | ⟨hf, ho⟩ <;> rw [hf, ho]
  · exact faulted_enterFault ..
  · exact completed_faultRegisters i s

/-- No fault condition of R231 mentions the model's own fields (log 1, log 5). -/
theorem ownFault_beginCycle (i : Instr) (r : Option Byte) (s : State) :
    ownFault (s.beginCycle r) i = ownFault s i := by
  cases i <;> rfl

/-- The word at `pc` is the one fetched (R63, R91). -/
theorem State.fetch_of_wordAtPc {s : State} {op : Word} (hp : s.pc.toNat ≤ 0xFFE)
    (hop : op.toNat = wordAtPc s) : s.fetch = some op := by
  rcases s.fetch_cases with ⟨hp', -⟩ | ⟨-, hf⟩
  · omega
  · rw [hf, BitVec.eq_of_toNat_eq (hop.trans (wordAtPc_of_fetch hf).symm)]

/-- A tick writes the timers at most, halted or not (R234, R239). -/
theorem sameExcept_onTick (s : State) : SameExcept [.dt, .st] s s.onTick := by
  unfold State.onTick
  split <;> simp [SameExcept]

/-- A tick cannot fault (R235, R239). -/
theorem onTick_faultRegisters (s : State) :
    s.onTick.halted = s.halted ∧ s.onTick.faultCause = s.faultCause := by
  obtain ⟨-, -, -, -, -, -, -, -, hfault, -⟩ := sameExcept_onTick s
  obtain ⟨hhalt, hcause, -⟩ := hfault (by decide)
  exact ⟨hhalt, hcause⟩

/-- Settles O9: the checks of R235 one after the other, the last of them the instruction's own
condition, which the start of the `Cycle` does not change. -/
theorem cycleFaultsExactly : Obligations.CycleFaultsExactly := by
  refine ⟨fun r s => ⟨cycle_halted r, fun hh hp => ⟨_, cycle_noFetch r hh hp, faulted_enterFault ..⟩,
    fun hh hp op hop => ?_⟩, fun s t h => ?_, rfl, rfl, rfl, rfl, rfl, rfl, rfl, ?_⟩
  · have hfetch := State.fetch_of_wordAtPc hp hop
    cases hd : decode op with
    | error e => exact ⟨_, cycle_illegal r hh hfetch hd, faulted_enterFault ..⟩
    | ok i =>
      refine ⟨_, (cycle_exec r hh hfetch hd).trans (exec_eq ..), ?_⟩
      dsimp only
      rcases outcome_cases i (s.beginCycle r) with ⟨c, a, hf, ho⟩ | ⟨hf, ho⟩ <;>
        rw [ownFault_beginCycle] at hf <;> rw [hf, ho]
      · rw [encode_of_decode hd]
        exact faulted_enterFault ..
      · obtain ⟨hhalt, hrecord⟩ := completed_faultRegisters i (s.beginCycle r)
        exact ⟨hhalt.trans hh, hrecord⟩
  · obtain rfl := Host.Outcome.next.inj h
    exact onTick_faultRegisters s
  · intro c
    cases c <;> decide

/-! The tick (R239). -/

/-- Halted, a tick does nothing (R234). -/
theorem State.onTick_of_halted {s : State} (h : s.halted = true) : s.onTick = s :=
  if_pos h

/-- Both timers decremented (R28), whatever `halted` holds; on a state that is not halted this is
`Tick`. -/
def State.ticked (s : State) : State := (s.setDt (decTimer s.dt)).setSt (decTimer s.st)

theorem State.onTick_of_running {s : State} (h : s.halted = false) : s.onTick = s.ticked :=
  if_neg (Bool.eq_false_iff.1 h)

/-- `DT` after a tick is one less, and never below 0 (R239). -/
theorem State.onTick_dt_toNat {s : State} (h : s.halted = false) :
    s.onTick.dt.toNat = s.dt.toNat - 1 := by
  rw [onTick_of_running h]
  exact decTimer_toNat s.dt

/-- `ST` after a tick is one less, and never below 0 (R239). -/
theorem State.onTick_st_toNat {s : State} (h : s.halted = false) :
    s.onTick.st.toNat = s.st.toNat - 1 := by
  rw [onTick_of_running h]
  exact decTimer_toNat s.st

/-- A tick writes neither `pc` nor `key_wait` (R239). -/
theorem State.onTick_pc_keyWait (s : State) :
    s.onTick.pc = s.pc ∧ s.onTick.keyWait = s.keyWait := by
  unfold State.onTick
  split <;> exact ⟨rfl, rfl⟩

/-- Settles O12: a tick writes the two decremented timers, or is nothing while halted. -/
theorem tickDecrementsTimers : Obligations.TickDecrementsTimers := by
  intro s
  obtain ⟨hpc, hwait⟩ := s.onTick_pc_keyWait
  exact ⟨s.onTick, rfl, State.onTick_of_halted, fun hh =>
    ⟨State.onTick_dt_toNat hh, State.onTick_st_toNat hh, hpc, hwait, sameExcept_onTick s⟩⟩

/-! The halted state (R234). -/

/-- A `LoadRom` writes memory at most (R45). -/
theorem onLoadRom_halted (s : State) (image : List Byte) :
    (s.onLoadRom image).halted = s.halted := by
  rcases s.onLoadRom_cases image with ⟨-, -, ho⟩ | ⟨-, ho⟩ <;> rw [ho]
  rfl

/-- After a `Cycle` since the last `Reset` a `LoadRom` is rejected (R45; log 5). -/
theorem onLoadRom_of_cycled {s : State} (h : s.cycled = true) (image : List Byte) :
    s.onLoadRom image = s := by
  rcases s.onLoadRom_cases image with ⟨-, hno, -⟩ | ⟨-, ho⟩
  · cases h.symm.trans hno
  · exact ho

/-- No event but `Reset` ends the halted state (R234). -/
theorem deliver_keeps_halted {e : Event} {s t : State} (hh : s.halted = true) (he : e ≠ .reset)
    (h : deliver e s = .next t) : t.halted = true := by
  cases e with
  | reset => contradiction
  | loadRom image =>
    obtain rfl := Host.Outcome.next.inj h
    exact (onLoadRom_halted s image).trans hh
  | setKeys k =>
    obtain rfl := Host.Outcome.next.inj h
    exact hh
  | cycle r =>
    obtain rfl := Host.Outcome.next.inj ((cycle_halted (some r) hh).symm.trans h)
    exact hh
  | tick =>
    obtain rfl := Host.Outcome.next.inj h
    rwa [State.onTick_of_halted hh]

/-- Settles O11: event by event from a halted state. -/
theorem haltedUntilReset : Obligations.HaltedUntilReset := fun s hh =>
  ⟨fun r => cycle_halted (some r) hh, congrArg _ (State.onTick_of_halted hh),
    setKeysWritesKeypadOnly s, fun hc image => congrArg _ (onLoadRom_of_cycled hc image),
    fun _ _ he h => deliver_keeps_halted hh he h, s.onReset, rfl, rfl⟩

/-! A `Tick` and a `Cycle` due together (R242). -/

/-- Only the completions of the three timer instructions mention a timer (R28, R29). -/
theorem completed_ticked {i : Instr} (s : State)
    (h : ∀ x, i ≠ .ldVxDt x ∧ i ≠ .ldDtVx x ∧ i ≠ .ldStVx x) :
    completed i s.ticked = (completed i s).ticked := by
  cases i with
  | ldVxDt x | ldDtVx x | ldStVx x =>
    obtain ⟨hldVxDt, hldDtVx, hldStVx⟩ := h x
    contradiction
  | ldVxK x =>
    exact completed_ldVxK_congr (g := State.ticked) rfl rfl fun _ => rfl
  | _ => rfl

/-- An instruction that neither reads nor writes a timer commutes with the decrement (R242). -/
theorem exec_ticked {i : Instr} {s t : State}
    (hi : ∀ x, i ≠ .ldVxDt x ∧ i ≠ .ldDtVx x ∧ i ≠ .ldStVx x) (h : exec i s = .next t) :
    exec i s.ticked = .next t.ticked :=
  exec_commutes (f := State.ticked) (by cases i <;> rfl) (fun _ _ => rfl)
    (fun _ => completed_ticked s hi) h

/-- Settles O20: the two orders with `Fx15`, the tick before `Fx07`, and the one state both orders
give with any instruction that has nothing to do with a timer. -/
theorem tickAndCycleOrders : Obligations.TickAndCycleOrders := by
  refine ⟨fun x s hh => ⟨?_, ?_⟩, fun x s hh => ?_, fun i s t hh hi h ht => ?_⟩
  · exact ⟨_, _, exec_of_noFault rfl, rfl, State.onTick_dt_toNat hh⟩
  · refine ⟨_, _, rfl, exec_of_noFault rfl, ?_⟩
    obtain ⟨hregs, -⟩ := sameExcept_onTick s
    show s.onTick.v[x] = s.v[x]
    rw [hregs (by decide)]
  · obtain ⟨t, ht, ⟨hx, -⟩, -⟩ := delayTimerIsRead x s.onTick
    exact ⟨_, t, rfl, ht, hx.trans (State.onTick_dt_toNat hh)⟩
  · rw [State.onTick_of_running hh, State.onTick_of_running ht]
    exact exec_ticked hi h

end Sys2Proof.Machine
end
